-- ==== Sys2Proof/Word.lean ====
section
/-! DEFINITION. Word.lean: the words of the block, and the small named sets its operands come from. -/

namespace Sys2Proof

/-- A byte is 8 bits (R9). -/
abbrev Byte := BitVec 8

/-- A nibble is 4 bits (R9). -/
abbrev Nibble := BitVec 4

/-- A 4-bit handle (R14, R25): a slot index, or NONE. -/
abbrev Handle := BitVec 4

/-- A host request word (R70). -/
abbrev ReqWord := BitVec 32

/-- A micro-op word (R80). -/
abbrev UopWord := BitVec 16

/-- A bus byte as the opcode table writes it, `{RS, RW, b}` (R95). -/
abbrev BusWord := BitVec 10

/-- NONE, the absent handle (R14, R70). -/
def noneHandle : Handle := 0xF#4

/-- A driven level (R9). -/
inductive Level where
  | L
  | H
  deriving DecidableEq, Repr

/-- What is known of a line: a driven level, or X, "no value known" (R9, R31). -/
inductive Seen where
  | L
  | H
  | X
  deriving DecidableEq, Repr

/-- The seven lines of an instance (R10, R14). -/
inductive Line where
  | E
  | RS
  | RW
  | D0
  | D1
  | D2
  | D3
  deriving DecidableEq, Repr

/-- An opaque pin descriptor (R7, R28): the block only compares descriptors and forwards them.
DESIGN CHOICE (log entry 9; safe): a name with a number, of which only equality is observable. -/
structure Pin where
  id : Nat
  deriving DecidableEq, Repr

/-- The record of seven descriptors, in the order E, RS, RW, D0, D1, D2, D3 (R28, R70). -/
structure Pins where
  e : Pin
  rs : Pin
  rw : Pin
  d0 : Pin
  d1 : Pin
  d2 : Pin
  d3 : Pin
  deriving DecidableEq, Repr

/-- The codes a fault can record (R21, R186); NONE is the absence of one. -/
inductive FaultCode where
  | absentHandle
  | illegalRequest
  | reentry
  | stringUnterminated
  deriving DecidableEq, Repr

/-- The side operand of a request (R70). -/
inductive Side where
  | none
  | pins (p : Pins)
  | bytes (s : List Byte)
  deriving DecidableEq, Repr

end Sys2Proof
end

