-- ==== Sys2Proof/Config.lean ====
section
/-! DEFINITION. Config.lean: the parameters of R7, and the one free value of the environment (R199). -/

namespace Sys2Proof

/-- The display width less one. OPEN in the spec (R7, D13): 1 ≤ DW ≤ 64. Log entry 5; safe. -/
opaque Config.displayWidthLess1 : Fin 64

/-- The number of instance slots less one. OPEN in the spec (R7, D21): 1 ≤ N_INST ≤ 15. Log entry 4; safe. -/
opaque Config.instanceCountLess1 : Fin 15

/-- The allocation draw (R199), "under no law": a FREE VALUE for each number of the draw. Log entry 2; safe. -/
opaque Config.drawAlloc : Nat → Bool

/-- `DW` (R7). -/
def Config.displayWidth : Nat := Config.displayWidthLess1.val + 1

/-- `N_INST` (R7). -/
def Config.instanceCount : Nat := Config.instanceCountLess1.val + 1

/-- `DR` (R7). -/
def Config.displayRows : Nat := 2

/-- `T_PULSE`, ms (R7, R103). -/
def Config.tPulse : BitVec 12 := 1#12

/-- `T_POWER`, ms (R7, R133). -/
def Config.tPower : BitVec 12 := 10#12

/-- `T_CFG`, ms (R7, R134). -/
def Config.tCfg : BitVec 12 := 5#12

/-- `T_CMD`, ms (R7, R125). -/
def Config.tCmd : BitVec 12 := 1#12

/-- `T_FINAL`, ms (R7, R136). -/
def Config.tFinal : BitVec 12 := 500#12

/-- `ROW1_BASE` (R7, R63). -/
def Config.row1Base : Nat := 0x40

/-- `CMD_FUNCTION_SET` (R87). PRESUMED (log entry 13), as are the five values below: the spec takes them
from general knowledge. -/
def Config.cmdFunctionSet : Byte := 0x28#8

/-- `CMD_DISPLAY_CONTROL` (R89). -/
def Config.cmdDisplayControl : Byte := 0x0F#8

/-- `CMD_ENTRY_MODE` (R90). -/
def Config.cmdEntryMode : Byte := 0x06#8

/-- `CMD_CLEAR` (R91). -/
def Config.cmdClear : Byte := 0x01#8

/-- `CMD_HOME` (R92). -/
def Config.cmdHome : Byte := 0x02#8

/-- `SETDDRAMADDR` (R88). -/
def Config.setDdramAddr : Byte := 0x80#8

theorem Config.displayWidth_pos : 0 < Config.displayWidth := Nat.succ_pos _

theorem Config.displayWidth_le : Config.displayWidth ≤ 64 := Config.displayWidthLess1.isLt

theorem Config.instanceCount_pos : 0 < Config.instanceCount := Nat.succ_pos _

theorem Config.instanceCount_le : Config.instanceCount ≤ 15 := Config.instanceCountLess1.isLt

end Sys2Proof
end

