-- ==== Sys2Proof/Syntax.lean ====
section
/-! DEFINITION. Syntax.lean: the 22 rows of spec/opcode_table.json, one constructor each. -/

namespace Sys2Proof

/-- The instructions of the block, in the table's order: the seven requests of the host port (R71), the
eight micro-ops (R81), and the seven bus bytes (R95). -/
inductive Instr where
  | init (p : Pins)
  | beginInit (h : Handle)
  | clearScreen (h : Handle)
  | home (h : Handle)
  | setCursor (h : Handle) (row column : Byte)
  | putChar (h : Handle) (byte : Byte)
  | putStr (h : Handle) (str : List Byte)
  | drive (ln : Line) (lvl : Level)
  | delay (n : BitVec 12)
  | enablePulse
  | writeNibble (v : Nibble)
  | sendCommand (b : Byte)
  | sendData (b : Byte)
  | curSet (row : BitVec 4) (col : Byte)
  | raise (code : FaultCode)
  | cmdFunctionSet
  | cmdDisplayControl
  | cmdEntryMode
  | cmdClear
  | cmdHome
  | cmdSetDdramAddr (addr : BitVec 7)
  | dataWrite (b : Byte)
  deriving DecidableEq, Repr

end Sys2Proof
end

