-- ==== Sys2Proof/Decode.lean ====
section
/-! DEFINITION. Decode.lean: the three notations of 30_encoding.md read and written, from the masks and patterns of R71, R81 and R95. -/

namespace Sys2Proof

/-- One encoded instruction: a request `(word, side)` of the host port (R70), a micro-op word (R80), or a bus byte (R95). -/
inductive Code where
  | request (w : ReqWord) (side : Side)
  | uop (w : UopWord)
  | bus (w : BusWord)
  deriving DecidableEq, Repr

/-- Why a code stands for no instruction. -/
inductive DecodeError where
  /-- OP 0x7..0xF (R71, R73). -/
  | reservedOp
  /-- A bit outside the fields of its row is set (R73, R81). -/
  | unusedBits
  /-- The side operand is not the kind R71 requires (R73). -/
  | wrongSide
  /-- UOP 0x8..0xF (R80, I17). -/
  | reservedUop
  /-- DRIVE line code 7..15 (R82, I17). -/
  | reservedLine
  /-- DELAY with n = 0 (R81, R83, I17). -/
  | zeroDelay
  /-- RAISE with a code outside 1..4 (R81, R186, I17). -/
  | reservedFaultCode
  /-- A 10-bit value that is no row of R95. -/
  | notABusByte
  deriving DecidableEq, Repr

/-- `(word & mask) = match`, the test of every row of the opcode table (R73). -/
def fits {n : Nat} (w pattern mask : BitVec n) : Bool := (w &&& mask) == pattern

/-! ### Fields -/

/-- OP, bits [3:0] (R70). -/
def opField (w : ReqWord) : BitVec 4 := w.extractLsb' 0 4

/-- H, bits [7:4] (R70). -/
def handleField (w : ReqWord) : Handle := w.extractLsb' 4 4

/-- A, bits [15:8] (R70). -/
def aField (w : ReqWord) : Byte := w.extractLsb' 8 8

/-- B, bits [23:16] (R70). -/
def bField (w : ReqWord) : Byte := w.extractLsb' 16 8

/-- UOP, bits [15:12] (R80). -/
def uopField (w : UopWord) : BitVec 4 := w.extractLsb' 12 4

/-- The line of a DRIVE (R82); 7..15 name none. -/
def lineOfCode (c : BitVec 4) : Option Line :=
  match c.toNat with
  | 0 => some .E
  | 1 => some .RS
  | 2 => some .RW
  | 3 => some .D0
  | 4 => some .D1
  | 5 => some .D2
  | 6 => some .D3
  | _ => none

/-- The line code of a DRIVE (R82). -/
def lineCode : Line → BitVec 4
  | .E => 0#4
  | .RS => 1#4
  | .RW => 2#4
  | .D0 => 3#4
  | .D1 => 4#4
  | .D2 => 5#4
  | .D3 => 6#4

/-- The level named by one bit: 0 is L, 1 is H (R82). -/
def levelOfBit (b : Bool) : Level := if b then .H else .L

/-- The bit of a level (R82). -/
def levelBit : Level → BitVec 1
  | .L => 0#1
  | .H => 1#1

/-- The fault a 3-bit code names (R186); 0 and 5..7 are never raised. -/
def faultOfCode (c : BitVec 3) : Option FaultCode :=
  match c.toNat with
  | 1 => some .absentHandle
  | 2 => some .illegalRequest
  | 3 => some .reentry
  | 4 => some .stringUnterminated
  | _ => none

/-- The 3-bit code of a fault (R21, R186). -/
def faultCodeBits : FaultCode → BitVec 3
  | .absentHandle => 1#3
  | .illegalRequest => 2#3
  | .reentry => 3#3
  | .stringUnterminated => 4#3

/-- The `fault` register as its 3-bit code: NONE is 0 (R21). -/
def faultBits : Option FaultCode → BitVec 3
  | none => 0#3
  | some c => faultCodeBits c

/-! ### Reading -/

/-- `i` where the word fits its row. -/
def ifFits {n : Nat} (w pattern mask : BitVec n) (r : Except DecodeError Instr) : Except DecodeError Instr :=
  if fits w pattern mask then r else .error .unusedBits

/-- `i` where the request has no side operand. -/
def withNoSide (side : Side) (i : Instr) : Except DecodeError Instr :=
  match side with
  | .none => .ok i
  | .pins _ => .error .wrongSide
  | .bytes _ => .error .wrongSide

/-- The request `(w, side)` (R71 to R73): one of the seven operations, or illegal. -/
def decodeRequest (w : ReqWord) (side : Side) : Except DecodeError Instr :=
  match (opField w).toNat with
  | 0 => ifFits w 0x00000000#32 0xFFFFFFFF#32 (match side with
      | .pins p => .ok (.init p)
      | .none => .error .wrongSide
      | .bytes _ => .error .wrongSide)
  | 1 => ifFits w 0x00000001#32 0xFFFFFF0F#32 (withNoSide side (.beginInit (handleField w)))
  | 2 => ifFits w 0x00000002#32 0xFFFFFF0F#32 (withNoSide side (.clearScreen (handleField w)))
  | 3 => ifFits w 0x00000003#32 0xFFFFFF0F#32 (withNoSide side (.home (handleField w)))
  | 4 => ifFits w 0x00000004#32 0xFF00000F#32 (withNoSide side (.setCursor (handleField w) (aField w) (bField w)))
  | 5 => ifFits w 0x00000005#32 0xFFFF000F#32 (withNoSide side (.putChar (handleField w) (aField w)))
  | 6 => ifFits w 0x00000006#32 0xFFFFFF0F#32 (match side with
      | .bytes s => .ok (.putStr (handleField w) s)
      | .none => .error .wrongSide
      | .pins _ => .error .wrongSide)
  | _ => .error .reservedOp

/-- The micro-op word `w` (R80 to R83). -/
def decodeUop (w : UopWord) : Except DecodeError Instr :=
  match (uopField w).toNat with
  | 0 => ifFits w 0x0000#16 0xF0FE#16 (match lineOfCode (w.extractLsb' 8 4) with
      | some ln => .ok (.drive ln (levelOfBit (w.getLsbD 0)))
      | none => .error .reservedLine)
  | 1 => ifFits w 0x1000#16 0xF000#16
      (if w.extractLsb' 0 12 = 0#12 then .error .zeroDelay else .ok (.delay (w.extractLsb' 0 12)))
  | 2 => ifFits w 0x2000#16 0xFFFF#16 (.ok .enablePulse)
  | 3 => ifFits w 0x3000#16 0xFFF0#16 (.ok (.writeNibble (w.extractLsb' 0 4)))
  | 4 => ifFits w 0x4000#16 0xFF00#16 (.ok (.sendCommand (w.extractLsb' 0 8)))
  | 5 => ifFits w 0x5000#16 0xFF00#16 (.ok (.sendData (w.extractLsb' 0 8)))
  | 6 => ifFits w 0x6000#16 0xF000#16 (.ok (.curSet (w.extractLsb' 8 4) (w.extractLsb' 0 8)))
  | 7 => ifFits w 0x7000#16 0xFFF8#16 (match faultOfCode (w.extractLsb' 0 3) with
      | some c => .ok (.raise c)
      | none => .error .reservedFaultCode)
  | _ => .error .reservedUop

/-- The bus byte `w` (R95). -/
def decodeBus (w : BusWord) : Except DecodeError Instr :=
  if fits w 0x028#10 0x3FF#10 then .ok .cmdFunctionSet
  else if fits w 0x00F#10 0x3FF#10 then .ok .cmdDisplayControl
  else if fits w 0x006#10 0x3FF#10 then .ok .cmdEntryMode
  else if fits w 0x001#10 0x3FF#10 then .ok .cmdClear
  else if fits w 0x002#10 0x3FF#10 then .ok .cmdHome
  else if fits w 0x080#10 0x380#10 then .ok (.cmdSetDdramAddr (w.extractLsb' 0 7))
  else if fits w 0x200#10 0x300#10 then .ok (.dataWrite (w.extractLsb' 0 8))
  else .error .notABusByte

/-- The instruction a code stands for, or why it stands for none. -/
def decode : Code → Except DecodeError Instr
  | .request w side => decodeRequest w side
  | .uop w => decodeUop w
  | .bus w => decodeBus w

/-- A request is legal when it decodes (R73). -/
def legalRequest (w : ReqWord) (side : Side) : Bool :=
  match decodeRequest w side with
  | .ok _ => true
  | .error _ => false

/-! ### Writing -/

/-- The request word `{RSV, B, A, H, OP}` (R70, R97). -/
def requestWord (op : BitVec 4) (h : Handle) (a b : Byte) : ReqWord :=
  (((0#8 ++ b) ++ a) ++ h) ++ op

/-- DRIVE (R82): `0x0000 | line << 8 | level`. -/
def driveWord (ln : Line) (lvl : Level) : UopWord :=
  ((0x0#4 ++ lineCode ln) ++ 0#7) ++ levelBit lvl

/-- DELAY (R83): `0x1000 | n`. -/
def delayWord (n : BitVec 12) : UopWord := 0x1#4 ++ n

/-- CURSET (R169): `0x6000 | r << 8 | c`. -/
def curSetWord (row : BitVec 4) (col : Byte) : UopWord := (0x6#4 ++ row) ++ col

/-- RAISE (R185): `0x7000 | code`. -/
def raiseWord (c : FaultCode) : UopWord := (0x7#4 ++ 0#9) ++ faultCodeBits c

/-- The code of an instruction, from the tables of R71, R81 and R95. -/
def encode : Instr → Code
  | .init p => .request (requestWord 0x0#4 0#4 0#8 0#8) (.pins p)
  | .beginInit h => .request (requestWord 0x1#4 h 0#8 0#8) .none
  | .clearScreen h => .request (requestWord 0x2#4 h 0#8 0#8) .none
  | .home h => .request (requestWord 0x3#4 h 0#8 0#8) .none
  | .setCursor h row column => .request (requestWord 0x4#4 h row column) .none
  | .putChar h byte => .request (requestWord 0x5#4 h byte 0#8) .none
  | .putStr h str => .request (requestWord 0x6#4 h 0#8 0#8) (.bytes str)
  | .drive ln lvl => .uop (driveWord ln lvl)
  | .delay n => .uop (delayWord n)
  | .enablePulse => .uop 0x2000#16
  | .writeNibble v => .uop (0x300#12 ++ v)
  | .sendCommand b => .uop (0x40#8 ++ b)
  | .sendData b => .uop (0x50#8 ++ b)
  | .curSet row col => .uop (curSetWord row col)
  | .raise c => .uop (raiseWord c)
  | .cmdFunctionSet => .bus 0x028#10
  | .cmdDisplayControl => .bus 0x00F#10
  | .cmdEntryMode => .bus 0x006#10
  | .cmdClear => .bus 0x001#10
  | .cmdHome => .bus 0x002#10
  | .cmdSetDdramAddr addr => .bus (0b001#3 ++ addr)
  | .dataWrite b => .bus (0b10#2 ++ b)

/-! ### The opcode table's words, as the host numbers them (log entries 11 and 12) -/

/-- Seven descriptors of number 0: a pins operand of zeros. -/
def zeroPins : Pins := ⟨⟨0⟩, ⟨0⟩, ⟨0⟩, ⟨0⟩, ⟨0⟩, ⟨0⟩, ⟨0⟩⟩

/-- The side operand of the kind R71 requires for a word's OP, its contents zeros: the table gives it no bits. -/
def zeroSide (w : ReqWord) : Side :=
  match (opField w).toNat with
  | 0 => .pins zeroPins
  | 6 => .bytes [0#8]
  | _ => .none

/-- The code of a table row's word. A row of 32 bits is a request and one of 16 a micro-op; a bus byte has 10 bits, which in
whole bytes are 16, so that a 16-bit word that is a row of R95 is read as a bus byte. DESIGN CHOICE, log entry 11; safe. -/
def tableCode (nbits w : Nat) : Code :=
  if 16 < nbits then .request (BitVec.ofNat 32 w) (zeroSide (BitVec.ofNat 32 w))
  else if nbits ≤ 10 then .bus (BitVec.ofNat 10 w)
  else if w < 1024 then
    match decodeBus (BitVec.ofNat 10 w) with
    | .ok _ => .bus (BitVec.ofNat 10 w)
    | .error _ => .uop (BitVec.ofNat 16 w)
  else .uop (BitVec.ofNat 16 w)

/-- What the decoder reads from a table row's word. -/
def decodeTableWord (nbits w : Nat) : Option Instr :=
  match decode (tableCode nbits w) with
  | .ok i => some i
  | .error _ => none

end Sys2Proof
end

