-- ==== Sys2Proof/Machine/State.lean ====
section
/-! DEFINITION. Machine/State.lean: everything the spec gives the block (R20), the model's own fields beside it, and the
state after reset (R37). Plain data. -/

namespace Sys2Proof.Machine

/-- Why the machine stops with a fault. -/
inductive Fault where
  /-- Raised by every step and every instruction of a block whose `fault` register holds `c`: "a block with fault ≠ NONE is
  halted and has no further step" (R21, R185, I20). Safe: nothing goes on that the spec stops. -/
  | halted (c : FaultCode)
  /-- Raised by DRIVE, CURSET and what is made of them when `active` names no present instance, so that there is no
  descriptor to drive and no cursor to write. The spec rules this state out (R100, R182). Log entry 15; safe. -/
  | noActiveInstance
  deriving DecidableEq, Repr

/-- Why the machine gives a step no meaning. -/
inductive Refusal where
  /-- Raised by an arm of exec whose instruction has no meaning yet. Safe. -/
  | notModelled (mnemonic : String)
  /-- Raised by a step whose `pending` head is a word no micro-op has: UOP 0x8..0xF, DRIVE lines 7..15, DELAY 0, fault codes 0
  and 5..7, a set bit outside the row's fields (I17: "refuse"). The spec rules it out of `pending`. Log entry 8; safe. -/
  | reservedMicroOp
  /-- Raised by a step whose `busIn` is no row of R95. Log entry 10; safe. -/
  | reservedBusByte
  /-- Raised by DELAY with n = 0, which no word encodes (R81: n ≥ 1; I17: "refuse"). Log entry 8; safe. -/
  | delayZero
  deriving DecidableEq, Repr

/-- One event of the trace (R32). -/
inductive Event where
  | drive (p : Pin) (lvl : Level)
  | delay (ms : Nat)
  deriving DecidableEq, Repr

/-- One instance slot (R20, R26 to R30). -/
structure Slot where
  present : Bool
  pins : Pins
  row : Byte
  col : Byte
  deriving DecidableEq, Repr

/-- What a call hands back to the host (R11): INIT's handle or NONE; from every other operation, its completion. -/
inductive Return where
  | handle (h : Handle)
  | completed
  deriving DecidableEq, Repr

/-- One move of the host (R180, R201). DESIGN CHOICE, log entry 1; safe: every interleaving of requests with the block's
steps is some list of moves. -/
inductive HostMove where
  /-- Present the request `(w, side)` now, from any calling context. -/
  | present (w : ReqWord) (side : Side)
  /-- Present nothing at this instant. -/
  | pass
  /-- Stay blocked in the call in flight: present nothing until the block is idle. -/
  | await
  deriving DecidableEq, Repr

/-- The state. The first seven fields are the spec's (R20); the last four are the model's own. -/
structure State where
  /-- `fault` (R21); `none` is NONE. -/
  fault : Option FaultCode
  /-- `busy` (R22). -/
  busy : Bool
  /-- `active` (R25). -/
  active : Handle
  /-- `pending` (R24): leaf micro-op words. -/
  pending : List UopWord
  /-- `inst[h]` (R26): room for the largest N_INST; a slot at or above N_INST does not exist (log entry 4). -/
  insts : Vector Slot 15
  /-- `level` (R31): the driven descriptors, numbers strictly rising; an unlisted one reads X. -/
  level : List (Pin × Level)
  /-- `trace` (R32), oldest event first. -/
  trace : List Event
  /-- MODEL'S OWN (log entry 3): the values returned to the host, oldest first (R12, R17). -/
  returns : List Return
  /-- MODEL'S OWN (log entry 1): the host's moves to come, next first. -/
  host : List HostMove
  /-- MODEL'S OWN (log entry 2): how many allocation draws have been made. -/
  drawCount : Nat
  /-- MODEL'S OWN (log entry 10): a bus byte handed to the transmitter by itself. -/
  busIn : Option BusWord
  deriving DecidableEq, Repr

/-- A slot after reset: not present. Its other fields "hold no value" (R26, R37); zeros are a DESIGN CHOICE, log entry 6. -/
def Slot.reset : Slot := ⟨false, ⟨⟨0⟩, ⟨0⟩, ⟨0⟩, ⟨0⟩, ⟨0⟩, ⟨0⟩, ⟨0⟩⟩, 0#8, 0#8⟩

/-- The state after reset (R37, R210, R211). -/
def State.reset : State where
  fault := none
  busy := false
  active := noneHandle
  pending := []
  insts := Vector.replicate 15 Slot.reset
  level := []
  trace := []
  returns := []
  host := []
  drawCount := 0
  busIn := none

end Sys2Proof.Machine
end

