-- ==== Sys2Proof/Machine/Flags.lean ====
section
/-! DEFINITION. Machine/Flags.lean: the block's only status bits are `busy`, `fault` and `present` (R23). No operation
computes a flag from data, so there is no flag computation; here are the tests that read the bits. -/

namespace Sys2Proof.Machine

/-- A halted block has no step: run `k` only while `fault = NONE` (R21, R180, R185). -/
def unlessHalted (s : State) (k : Host.Outcome State Fault Refusal) : Host.Outcome State Fault Refusal :=
  match s.fault with
  | some c => .fault (.halted c)
  | none => k

/-- Slot `h` exists and is free (R130): `h < N_INST` and not present. -/
def slotFree (nInst : Nat) (insts : Vector Slot 15) (h : Fin 15) : Bool :=
  !insts[h].present && decide (h.val < nInst)

/-- The present instance a handle names, if any (R26): "only if h < N_INST and inst[h].present = 1". -/
def instOf (s : State) (h : Handle) : Option Slot :=
  match s.insts[h.toNat]? with
  | some slot => if slot.present && decide (h.toNat < Config.instanceCount) then some slot else none
  | none => none

end Sys2Proof.Machine
end

