-- ==== Sys2Proof/Machine/Operands.lean ====
section
/-! DEFINITION. Machine/Operands.lean: the operands of the routines: the descriptor of a line, the bits of a nibble, the bytes
of PutStr's sequence, cursor arithmetic, and the leaves an operation expands into. -/

namespace Sys2Proof.Machine

/-- The leaf micro-ops (R80): the only ones that appear in `pending` (R24). -/
inductive Leaf where
  | drive (ln : Line) (lvl : Level)
  | delay (n : BitVec 12)
  | curSet (row : BitVec 4) (col : Byte)
  | raise (c : FaultCode)
  deriving DecidableEq, Repr

/-- The word of a leaf (R81). -/
def leafWord : Leaf → UopWord
  | .drive ln lvl => driveWord ln lvl
  | .delay n => delayWord n
  | .curSet row col => curSetWord row col
  | .raise c => raiseWord c

/-- The instruction a leaf is. -/
def leafInstr : Leaf → Instr
  | .drive ln lvl => .drive ln lvl
  | .delay n => .delay n
  | .curSet row col => .curSet row col
  | .raise c => .raise c

/-- `pin(ln)` of a pin record (R10). -/
def pinOf (p : Pins) : Line → Pin
  | .E => p.e
  | .RS => p.rs
  | .RW => p.rw
  | .D0 => p.d0
  | .D1 => p.d1
  | .D2 => p.d2
  | .D3 => p.d3

/-- The level of bit `i` of a nibble (R51). -/
def bitLevel (v : Nibble) (i : Nat) : Level := levelOfBit (v.getLsbD i)

/-- `b >> 4` (R50). -/
def highNibble (b : Byte) : Nibble := b.extractLsb' 4 4

/-- `b & 0xF` (R50). -/
def lowNibble (b : Byte) : Nibble := b.extractLsb' 0 4

/-- `MemRead(S, i, 1)` (R55): the byte, or the fault past the end. -/
def memRead (str : List Byte) (i : Nat) : Except FaultCode Byte :=
  match str[i]? with
  | some b => .ok b
  | none => .error .stringUnterminated

/-- `column mod DW` (R155). -/
def wrapColumn (dw : Nat) (column : Byte) : Nat := column.toNat % dw

/-- `row mod DR` (R156). -/
def wrapRow (row : Byte) : Nat := row.toNat % Config.displayRows

/-- The DDRAM address of a cell (R63, R157), 7 bits. -/
def ddramAddr (row column : Nat) : BitVec 7 :=
  BitVec.ofNat 7 (column + if row = 1 then Config.row1Base else 0)

/-- `SETDDRAMADDR | addr` (R88). -/
def setDdramByte (addr : BitVec 7) : Byte := Config.setDdramAddr ||| addr.setWidth 8

/-- The cursor after one character (R162), from row `r` and column `c`. -/
def advance (dw : Nat) (r c : Byte) : Byte × Byte :=
  if c.toNat = dw - 1 ∧ r.toNat = Config.displayRows - 1 then (0#8, 0#8)
  else if c.toNat = dw - 1 then (r + 1#8, 0#8)
  else (r, c + 1#8)

/-- The CURSET leaf that writes the cursor `(r, c)` (R169): the row field has 4 bits (R81). -/
def curSetLeaf (r c : Byte) : Leaf := .curSet (r.setWidth 4) c

end Sys2Proof.Machine
end

