-- ==== Sys2Proof/Machine/Ops.lean ====
section
/-! DEFINITION. Machine/Ops.lean: the named operations over the state: raising a fault, driving a line, waiting, writing the
cursor, performing leaves, accepting a request and completing it. -/

namespace Sys2Proof.Machine

/-- `raise Fault(code)` (R185), the one way a fault is taken: the code is recorded and nothing else changes. The block has no
trap entry and no return from a fault (R191, R192), so nothing is saved and no operation restores. -/
def raiseFault (c : FaultCode) (s : State) : State := { s with fault := some c }

/-- The level last driven on `p`, X if none (R31). -/
def levelOf : List (Pin × Level) → Pin → Seen
  | [], _ => .X
  | (q, v) :: rest, p =>
    if q = p then
      match v with
      | .L => .L
      | .H => .H
    else levelOf rest p

/-- `level[p] <- v` (R31), keeping the descriptors' numbers strictly rising. -/
def setLevel (p : Pin) (v : Level) : List (Pin × Level) → List (Pin × Level)
  | [] => [(p, v)]
  | (q, u) :: rest =>
    if p.id < q.id then (p, v) :: (q, u) :: rest
    else if p.id = q.id then (p, v) :: rest
    else (q, u) :: setLevel p v rest

/-- The canonical form of the level map: numbers strictly rising. -/
def levelsWf : List (Pin × Level) → Bool
  | [] => true
  | [_] => true
  | a :: b :: rest => decide (a.1.id < b.1.id) && levelsWf (b :: rest)

/-- The effect of a Pin Provider call (R100), whichever of setHigh, setLow and setState it is (R101). -/
def drivePin (p : Pin) (v : Level) (s : State) : State :=
  { s with level := setLevel p v s.level, trace := s.trace ++ [.drive p v] }

/-- `Drive(ln, lvl)` (R11, R100). -/
def driveLine (ln : Line) (lvl : Level) (s : State) : Host.Outcome State Fault Refusal :=
  match instOf s s.active with
  | some slot => .next (drivePin (pinOf slot.pins ln) lvl s)
  | none => .fault .noActiveInstance

/-- `Delay(n)` (R11, R102): the wait runs to completion, its elapsed time is read by no rule (R60, log entry 16). -/
def requestDelay (n : BitVec 12) (s : State) : Host.Outcome State Fault Refusal :=
  if n = 0#12 then .refused .delayZero
  else .next { s with trace := s.trace ++ [.delay n.toNat] }

/-- Write slot `h`. -/
def setSlot (h : Handle) (slot : Slot) (s : State) : State :=
  { s with insts := s.insts.setIfInBounds h.toNat slot }

/-- `CurSet(r, c)` (R169). -/
def writeCursor (row : BitVec 4) (col : Byte) (s : State) : Host.Outcome State Fault Refusal :=
  match instOf s s.active with
  | some slot => .next (setSlot s.active { slot with row := row.setWidth 8, col := col } s)
  | none => .fault .noActiveInstance

/-- Perform one leaf (R180). -/
def performLeaf : Leaf → State → Host.Outcome State Fault Refusal
  | .drive ln lvl, s => driveLine ln lvl s
  | .delay n, s => requestDelay n s
  | .curSet row col, s => writeCursor row col s
  | .raise c, s => .next (raiseFault c s)

/-- Perform leaves in order, each complete before the next begins (R11, R58): "runs an internal routine to completion". -/
def performLeaves : List Leaf → State → Host.Outcome State Fault Refusal
  | [], s => .next s
  | u :: us, s =>
    match performLeaf u s with
    | .next t => performLeaves us t
    | .fault r => .fault r
    | .refused r => .refused r

/-- Acceptance of a legal request with a handle (R180): REENTRY, then ABSENT_HANDLE (R188), else the operation starts, its
whole expansion computed at once from the slot (R27). -/
def acceptRequest (h : Handle) (expand : Slot → List Leaf) (s : State) : Host.Outcome State Fault Refusal :=
  unlessHalted s <|
    if s.busy then .next (raiseFault .reentry s)
    else
      match instOf s h with
      | none => .next (raiseFault .absentHandle s)
      | some slot =>
        .next { s with busy := true, active := h, pending := (expand slot).map leafWord }

/-- `return v` (R11): `v` is handed to the host. -/
def handBack (v : Return) (s : State) : State := { s with returns := s.returns ++ [v] }

/-- Completion (R180): `busy <- 0; return`. -/
def completeRequest (s : State) : State := handBack .completed { s with busy := false }

end Sys2Proof.Machine
end

