-- ==== Sys2Proof/Machine/SignalDriver.lean ====
section
/-! DEFINITION. Machine/SignalDriver.lean: DRIVE, DELAY, ENABLEPULSE, WRITENIBBLE (40_signal_driver.md). -/

namespace Sys2Proof.Machine

/-- `EnablePulse()` (R103): high, low (the latch), high again. -/
def enablePulseLeaves : List Leaf :=
  [.drive .E .H, .delay Config.tPulse, .drive .E .L, .delay Config.tPulse, .drive .E .H]

/-- `WriteNibble(v)` (R104), the data lines in the order D0 to D3 (R105). -/
def writeNibbleLeaves (v : Nibble) : List Leaf :=
  [.drive .D0 (bitLevel v 0), .drive .D1 (bitLevel v 1), .drive .D2 (bitLevel v 2), .drive .D3 (bitLevel v 3)]
    ++ enablePulseLeaves

/-- DRIVE (R100). -/
def execDrive (ln : Line) (lvl : Level) (s : State) : Host.Outcome State Fault Refusal :=
  unlessHalted s (driveLine ln lvl s)

/-- DELAY (R102). -/
def execDelay (n : BitVec 12) (s : State) : Host.Outcome State Fault Refusal :=
  unlessHalted s (requestDelay n s)

/-- ENABLEPULSE (R103), run to completion (R11; log entry 14). -/
def execEnablePulse (s : State) : Host.Outcome State Fault Refusal :=
  unlessHalted s (performLeaves enablePulseLeaves s)

/-- WRITENIBBLE (R104), run to completion (R11; log entry 14). -/
def execWriteNibble (v : Nibble) (s : State) : Host.Outcome State Fault Refusal :=
  unlessHalted s (performLeaves (writeNibbleLeaves v) s)

end Sys2Proof.Machine
end

