-- ==== Sys2Proof/Machine/Transmitter.lean ====
section
/-! DEFINITION. Machine/Transmitter.lean: SENDCOMMAND, SENDDATA (41_transmitter.md). -/

namespace Sys2Proof.Machine

/-- One byte under the control level `rs`: RS, RW low, the high nibble, the low nibble (R50, R120, R121). -/
def sendByteLeaves (rs : Level) (b : Byte) : List Leaf :=
  [.drive .RS rs, .drive .RW .L] ++ writeNibbleLeaves (highNibble b) ++ writeNibbleLeaves (lowNibble b)

/-- `SendCommand(b)` (R120): RS low. -/
def sendCommandLeaves (b : Byte) : List Leaf := sendByteLeaves .L b

/-- `SendData(b)` (R121): RS high. -/
def sendDataLeaves (b : Byte) : List Leaf := sendByteLeaves .H b

/-- SENDCOMMAND (R120), run to completion (R11; log entry 14). -/
def execSendCommand (b : Byte) (s : State) : Host.Outcome State Fault Refusal :=
  unlessHalted s (performLeaves (sendCommandLeaves b) s)

/-- SENDDATA (R121), run to completion (R11; log entry 14). -/
def execSendData (b : Byte) (s : State) : Host.Outcome State Fault Refusal :=
  unlessHalted s (performLeaves (sendDataLeaves b) s)

end Sys2Proof.Machine
end

