-- ==== Sys2Proof/Machine/BusBytes.lean ====
section
/-! DEFINITION. Machine/BusBytes.lean: the seven bus bytes of R95. A bus byte `(RS, b)` "is the pair of transfers made by one
SendCommand or SendData" (R85), so its meaning is that byte sent to completion on the active instance (log entry 10). -/

namespace Sys2Proof.Machine

/-- Send the bus byte `(rs, b)` (R85). -/
def sendBusByte (rs : Level) (b : Byte) (s : State) : Host.Outcome State Fault Refusal :=
  unlessHalted s (performLeaves (sendByteLeaves rs b) s)

/-- CMD_FUNCTION_SET (R87). -/
def execCmdFunctionSet (s : State) : Host.Outcome State Fault Refusal := sendBusByte .L Config.cmdFunctionSet s

/-- CMD_DISPLAY_CONTROL (R89). -/
def execCmdDisplayControl (s : State) : Host.Outcome State Fault Refusal := sendBusByte .L Config.cmdDisplayControl s

/-- CMD_ENTRY_MODE (R90). -/
def execCmdEntryMode (s : State) : Host.Outcome State Fault Refusal := sendBusByte .L Config.cmdEntryMode s

/-- CMD_CLEAR (R91). -/
def execCmdClear (s : State) : Host.Outcome State Fault Refusal := sendBusByte .L Config.cmdClear s

/-- CMD_HOME (R92). -/
def execCmdHome (s : State) : Host.Outcome State Fault Refusal := sendBusByte .L Config.cmdHome s

/-- CMD_SET_DDRAM_ADDR (R88): SETDDRAMADDR with its 7-bit address. An address off the display passes the row's mask (R95) but is
never emitted (R53, R94): that handed in by itself it is sent as any other is a DESIGN CHOICE, log entry 22; safe for runs from
reset. -/
def execCmdSetDdramAddr (addr : BitVec 7) (s : State) : Host.Outcome State Fault Refusal :=
  sendBusByte .L (setDdramByte addr) s

/-- DATA_WRITE (R93): the byte unchanged. -/
def execDataWrite (b : Byte) (s : State) : Host.Outcome State Fault Refusal := sendBusByte .H b s

end Sys2Proof.Machine
end

