-- ==== Sys2Proof/Machine/FaultRaise.lean ====
section
/-! DEFINITION. Machine/FaultRaise.lean: RAISE (60_exceptions.md R185). -/

namespace Sys2Proof.Machine

/-- RAISE (R185): "only ever written while fault = NONE". -/
def execRaise (c : FaultCode) (s : State) : Host.Outcome State Fault Refusal :=
  unlessHalted s (.next (raiseFault c s))

end Sys2Proof.Machine
end

