-- ==== Sys2Proof/Machine/CursorOutput.lean ====
section
/-! DEFINITION. Machine/CursorOutput.lean: CLEARSCREEN, HOME, SETCURSOR, PUTCHAR, PUTSTR, CURSET (43_cursor_output.md). -/

namespace Sys2Proof.Machine

/-- The ClearScreen body (R150). -/
def clearScreenLeaves : List Leaf :=
  sendCommandLeaves Config.cmdClear ++ [.delay Config.tCmd, curSetLeaf 0#8 0#8]

/-- The Home body (R152). -/
def homeLeaves : List Leaf :=
  sendCommandLeaves Config.cmdHome ++ [.delay Config.tCmd, curSetLeaf 0#8 0#8]

/-- The SetCursor body (R157) on a display of width `dw`, from the reduced row and column (R155, R156). -/
def setCursorLeaves (dw : Nat) (row column : Byte) : List Leaf :=
  sendCommandLeaves (setDdramByte (ddramAddr (wrapRow row) (wrapColumn dw column)))
    ++ [.delay Config.tCmd, curSetLeaf (BitVec.ofNat 8 (wrapRow row)) (BitVec.ofNat 8 (wrapColumn dw column))]

/-- The PutChar body (R162) from the cursor `(r, c)`. No address command, on a wrap either (R164). -/
def putCharLeaves (dw : Nat) (r c : Byte) (b : Byte) : List Leaf :=
  sendDataLeaves b ++ [.delay Config.tCmd, curSetLeaf (advance dw r c).1 (advance dw r c).2]

/-- The PutStr loop (R166) from the cursor `(r, c)`, over what is left of the sequence: MemRead past the end is the RAISE leaf
(R55, R184), the first zero byte ends the loop, and each body reads the cursor the one before left (R168). -/
def putStrLeaves (dw : Nat) (r c : Byte) : List Byte → List Leaf
  | [] => [.raise .stringUnterminated]
  | b :: rest =>
    if b = 0#8 then []
    else putCharLeaves dw r c b ++ putStrLeaves dw (advance dw r c).1 (advance dw r c).2 rest

/-- CLEARSCREEN (R150). -/
def execClearScreen (h : Handle) (s : State) : Host.Outcome State Fault Refusal :=
  acceptRequest h (fun _ => clearScreenLeaves) s

/-- HOME (R152). -/
def execHome (h : Handle) (s : State) : Host.Outcome State Fault Refusal :=
  acceptRequest h (fun _ => homeLeaves) s

/-- SETCURSOR (R157). -/
def execSetCursor (h : Handle) (row column : Byte) (s : State) : Host.Outcome State Fault Refusal :=
  acceptRequest h (fun _ => setCursorLeaves Config.displayWidth row column) s

/-- PUTCHAR (R162). -/
def execPutChar (h : Handle) (byte : Byte) (s : State) : Host.Outcome State Fault Refusal :=
  acceptRequest h (fun slot => putCharLeaves Config.displayWidth slot.row slot.col byte) s

/-- PUTSTR (R166). -/
def execPutStr (h : Handle) (str : List Byte) (s : State) : Host.Outcome State Fault Refusal :=
  acceptRequest h (fun slot => putStrLeaves Config.displayWidth slot.row slot.col str) s

/-- CURSET (R169). -/
def execCurSet (row : BitVec 4) (col : Byte) (s : State) : Host.Outcome State Fault Refusal :=
  unlessHalted s (writeCursor row col s)

end Sys2Proof.Machine
end

