-- ==== Sys2Proof/Machine/Initializer.lean ====
section
/-! DEFINITION. Machine/Initializer.lean: INIT, BEGIN (42_initializer.md). -/

namespace Sys2Proof.Machine

/-- `min(free)` (R130): the lowest free slot of the `nInst` that exist, if any. -/
def lowestFree (nInst : Nat) (insts : Vector Slot 15) : Option (Fin 15) :=
  (List.finRange 15).find? (slotFree nInst insts)

/-- The slot INIT makes (R130): present, with the captured descriptors (R28), the cursor at (0,0). -/
def freshSlot (p : Pins) : Slot := ⟨true, p, 0#8, 0#8⟩

/-- The end of `Init(P)` once a free slot `h` is found (R130): `ok` is the draw. Allocated, the slot is filled and `h` is
returned; not allocated, NONE is returned and no slot changes. -/
def finishInit (p : Pins) (h : Fin 15) (ok : Bool) (s : State) : State :=
  { s with
    insts := if ok then s.insts.set h.val (freshSlot p) else s.insts
    returns := s.returns ++ [.handle (if ok then BitVec.ofNat 4 h.val else noneHandle)] }

/-- The body of `Init(P)` (R130): no IO (R131), and an absent result is a value, not a fault. The draw is a free value
(R199, log entry 2), and is made only where a slot is free. -/
def initBody (p : Pins) (s : State) : State :=
  match lowestFree Config.instanceCount s.insts with
  | none => handBack (.handle noneHandle) s
  | some h => finishInit p h (Config.drawAlloc s.drawCount) { s with drawCount := s.drawCount + 1 }

/-- INIT (R130, R180): accepted when idle, over at once, `active` not written (R25). -/
def execInit (p : Pins) (s : State) : Host.Outcome State Fault Refusal :=
  unlessHalted s (if s.busy then .next (raiseFault .reentry s) else .next (initBody p s))

/-- Begin step 1 (R133). -/
def beginStep1 : List Leaf :=
  [.drive .E .L, .drive .RS .L, .drive .RW .L, .delay Config.tPower]

/-- One of Begin steps 2 to 4 (R134): a command and its settle delay. -/
def configLeaves (b : Byte) : List Leaf := sendCommandLeaves b ++ [.delay Config.tCfg]

/-- The Begin sequence (R132 to R137): seven steps, no branch, ClearScreen and Home inline (R135), no wake-up nibbles (R142). -/
def beginLeaves : List Leaf :=
  beginStep1
    ++ configLeaves Config.cmdFunctionSet
    ++ configLeaves Config.cmdDisplayControl
    ++ configLeaves Config.cmdEntryMode
    ++ clearScreenLeaves
    ++ homeLeaves
    ++ [.delay Config.tFinal]

/-- BEGIN (R132). -/
def execBegin (h : Handle) (s : State) : Host.Outcome State Fault Refusal :=
  acceptRequest h (fun _ => beginLeaves) s

end Sys2Proof.Machine
end

