-- ==== Sys2Proof/Machine/Dispatch.lean ====
section
/-! DEFINITION. Machine/Dispatch.lean: one arm per constructor of Instr, each a call of its meaning. -/

namespace Sys2Proof.Machine

def exec (i : Instr) (s : State) : Host.Outcome State Fault Refusal :=
  match i with
  | .init p => Sys2Proof.Machine.execInit p s
  | .beginInit h => Sys2Proof.Machine.execBegin h s
  | .clearScreen h => Sys2Proof.Machine.execClearScreen h s
  | .home h => Sys2Proof.Machine.execHome h s
  | .setCursor h row column => Sys2Proof.Machine.execSetCursor h row column s
  | .putChar h byte => Sys2Proof.Machine.execPutChar h byte s
  | .putStr h str => Sys2Proof.Machine.execPutStr h str s
  | .drive ln lvl => Sys2Proof.Machine.execDrive ln lvl s
  | .delay n => Sys2Proof.Machine.execDelay n s
  | .enablePulse => Sys2Proof.Machine.execEnablePulse s
  | .writeNibble v => Sys2Proof.Machine.execWriteNibble v s
  | .sendCommand b => Sys2Proof.Machine.execSendCommand b s
  | .sendData b => Sys2Proof.Machine.execSendData b s
  | .curSet row col => Sys2Proof.Machine.execCurSet row col s
  | .raise code => Sys2Proof.Machine.execRaise code s
  | .cmdFunctionSet => Sys2Proof.Machine.execCmdFunctionSet s
  | .cmdDisplayControl => Sys2Proof.Machine.execCmdDisplayControl s
  | .cmdEntryMode => Sys2Proof.Machine.execCmdEntryMode s
  | .cmdClear => Sys2Proof.Machine.execCmdClear s
  | .cmdHome => Sys2Proof.Machine.execCmdHome s
  | .cmdSetDdramAddr addr => Sys2Proof.Machine.execCmdSetDdramAddr addr s
  | .dataWrite b => Sys2Proof.Machine.execDataWrite b s

end Sys2Proof.Machine
end

