-- ==== Sys2Proof/Machine/Fetch.lean ====
section
/-! DEFINITION. Machine/Fetch.lean: what a step runs next (R180): a request the host presents, the head of `pending`, or no
instruction at all; and placing one instruction where the next step fetches it. -/

namespace Sys2Proof.Machine

/-- What a step found to do. -/
inductive Fetched where
  /-- Run `i` from `s`. -/
  | instr (i : Instr) (s : State)
  /-- No instruction: the step's outcome is already known. -/
  | done (o : Host.Outcome State Fault Refusal)
  deriving Repr

/-- `present(q)` of an illegal request (R180, R188): REENTRY while busy, for a request presented then is never decoded; else
ILLEGAL_REQUEST (R181). -/
def rejectRequest (s : State) : State :=
  if s.busy then raiseFault .reentry s else raiseFault .illegalRequest s

/-- `present(q)` (R180). A legal request goes on to its instruction, whose acceptance makes the other checks. -/
def present (w : ReqWord) (side : Side) (s : State) : Fetched :=
  match decodeRequest w side with
  | .ok i => .instr i s
  | .error _ => .done (.next (rejectRequest s))

/-- `step()` of the block (R180): perform the head of `pending`; with none left, complete the request; idle, wait unchanged
(R194; log entry 18). -/
def blockStep (s : State) : Fetched :=
  if s.busy then
    match s.pending with
    | [] => .done (.next (completeRequest s))
    | w :: rest =>
      match decodeUop w with
      | .ok i => .instr i { s with pending := rest }
      | .error _ => .done (.refused .reservedMicroOp)
  else .done (.next s)

/-- A bus byte handed to the transmitter by itself (log entry 10). -/
def busStep (w : BusWord) (s : State) : Fetched :=
  match decodeBus w with
  | .ok i => .instr i s
  | .error _ => .done (.refused .reservedBusByte)

/-- The host's next move (R180, R183), then the block's step where the host presents nothing. -/
def hostStep (s : State) : Fetched :=
  match s.host with
  | [] => blockStep s
  | .present w side :: rest => present w side { s with host := rest }
  | .pass :: rest => blockStep { s with host := rest }
  | .await :: rest => if s.busy then blockStep s else .done (.next { s with host := rest })

/-- What the next step does. -/
def fetch (s : State) : Fetched :=
  match s.fault with
  | some c => .done (.fault (.halted c))
  | none =>
    match s.busIn with
    | some w => busStep w { s with busIn := none }
    | none => hostStep s

/-- `s` with an instance for a micro-op to act on: a micro-op is fetched only inside an operation, whose acceptance bound
`active` to a present instance (R182). Where `active` names none, slot 0 is made present with descriptors of zeros. -/
def withActive (s : State) : State :=
  match instOf s s.active with
  | some _ => s
  | none => setSlot 0#4 (freshSlot zeroPins) { s with active := 0#4 }

/-- `s` with one encoded instruction where the next step fetches it (log entry 12): a request is the host's next move to an
idle block; a micro-op is the head of `pending` of a busy one, the host passing; a bus byte is in `busIn`. -/
def withCode (s : State) : Code → State
  | .request w side =>
    { s with fault := none, busy := false, busIn := none, host := .present w side :: s.host }
  | .uop w =>
    withActive { s with fault := none, busy := true, busIn := none, pending := w :: s.pending, host := .pass :: s.host }
  | .bus w => withActive { s with fault := none, busIn := some w }

end Sys2Proof.Machine
end

