-- ==== Sys2Proof/Machine/Step.lean ====
section
/-! DEFINITION. Machine/Step.lean: one step of the block with its host (R180). -/

namespace Sys2Proof.Machine

/-- One step: what `fetch` finds, run. -/
def step (s : State) : Host.Outcome State Fault Refusal :=
  match fetch s with
  | .instr i t => exec i t
  | .done o => o

/-- `s` with a table row's word where the next step fetches it (log entry 12). -/
def State.withFetchWord (s : State) (nbits w : Nat) : State := withCode s (tableCode nbits w)

end Sys2Proof.Machine
end

