-- ==== Sys2Proof/Machine/Latch.lean ====
section
/-! DEFINITION. Machine/Latch.lean: the latch observation (R85, R106): what the controller receives, read from a list of
events. It is an observation of the trace, not state, and is meant for seven pairwise distinct descriptors (R106, D31). -/

namespace Sys2Proof.Machine

/-- A transfer `{RS, RW, D3, D2, D1, D0}` (R85). -/
structure Transfer where
  rs : Seen
  rw : Seen
  d3 : Seen
  d2 : Seen
  d1 : Seen
  d0 : Seen
  deriving DecidableEq, Repr

/-- One edge of E (R106): a falling edge, or a possible one. -/
inductive Edge where
  | latch (t : Transfer)
  | possible (t : Transfer)
  deriving DecidableEq, Repr

/-- The transfer on the lines at levels `lv` (R106). -/
def sample (p : Pins) (lv : List (Pin × Level)) : Transfer where
  rs := levelOf lv p.rs
  rw := levelOf lv p.rw
  d3 := levelOf lv p.d3
  d2 := levelOf lv p.d2
  d1 := levelOf lv p.d1
  d0 := levelOf lv p.d0

/-- The edge one event makes, from the levels just before it (R106). -/
def edgeOf (p : Pins) (lv : List (Pin × Level)) : Event → List Edge
  | .delay _ => []
  | .drive _ .H => []
  | .drive q .L =>
    if q = p.e then
      match levelOf lv p.e with
      | .H => [.latch (sample p lv)]
      | .X => [.possible (sample p lv)]
      | .L => []
    else []

/-- The levels after one event (R31). -/
def levelsAfter (lv : List (Pin × Level)) : Event → List (Pin × Level)
  | .delay _ => lv
  | .drive q v => setLevel q v lv

/-- The edges a list of events makes, from levels `lv`, in trace order. -/
def edges (p : Pins) : List (Pin × Level) → List Event → List Edge
  | _, [] => []
  | lv, e :: es => edgeOf p lv e ++ edges p (levelsAfter lv e) es

/-- The latch sequences a list of edges admits: "both readings" of a possible edge (R106). -/
def readings : List Edge → List (List Transfer)
  | [] => [[]]
  | .latch t :: es => (readings es).map (t :: ·)
  | .possible t :: es => (readings es).map (t :: ·) ++ readings es

/-- The latch sequences of a run (R106), from the levels of reset (R211), as the controller wired to the descriptors `p`
receives them. R106 speaks of the active instance only; over a run of several instances one record `p` stands for the whole
trace, so that another instance's drive of the descriptor `p.e` is an edge too. DESIGN CHOICE, log entry 20; unsafe where
instances share descriptors. -/
def latchSequences (p : Pins) (trace : List Event) : List (List Transfer) := readings (edges p [] trace)

/-- The transfer `{rs, 0, v}` of a nibble (R85). -/
def nibbleTransfer (rs : Seen) (v : Nibble) : Transfer where
  rs := rs
  rw := .L
  d3 := if v.getLsbD 3 then .H else .L
  d2 := if v.getLsbD 2 then .H else .L
  d1 := if v.getLsbD 1 then .H else .L
  d0 := if v.getLsbD 0 then .H else .L

/-- The two transfers of a bus byte, high nibble first (R85, R124). -/
def byteTransfers (rs : Seen) (b : Byte) : List Transfer :=
  [nibbleTransfer rs (highNibble b), nibbleTransfer rs (lowNibble b)]

end Sys2Proof.Machine
end

