-- ==== Sys2Proof/WellFormed.lean ====
section
/-! DEFINITION. WellFormed.lean: the operand ranges that the encodings alone do not enforce. -/

namespace Sys2Proof

/-- A DDRAM address the block can emit on a display of width `dw`: `{0..dw-1}` or `{0x40..0x40+dw-1}` (R63, R94). -/
def ddramAddrOk (dw : Nat) (addr : BitVec 7) : Bool :=
  decide (addr.toNat < dw) || (decide (Config.row1Base ≤ addr.toNat) && decide (addr.toNat < Config.row1Base + dw))

/-- The operand ranges of R81, R83 and R94 on a display of width `dw`. Every other operand field admits all its values
(R72, R93, R120, R121; R130: "P is not checked"). -/
def Instr.wellFormedAt (dw : Nat) : Instr → Bool
  | .init _ => true
  | .beginInit _ => true
  | .clearScreen _ => true
  | .home _ => true
  | .setCursor _ _ _ => true
  | .putChar _ _ => true
  | .putStr _ _ => true
  | .drive _ _ => true
  | .delay n => n != 0#12
  | .enablePulse => true
  | .writeNibble _ => true
  | .sendCommand _ => true
  | .sendData _ => true
  | .curSet row col => decide (row.toNat < Config.displayRows) && decide (col.toNat < dw)
  | .raise _ => true
  | .cmdFunctionSet => true
  | .cmdDisplayControl => true
  | .cmdEntryMode => true
  | .cmdClear => true
  | .cmdHome => true
  | .cmdSetDdramAddr addr => ddramAddrOk dw addr
  | .dataWrite _ => true

/-- Well-formed on this block's display. -/
def Instr.wellFormed (i : Instr) : Bool := i.wellFormedAt Config.displayWidth

end Sys2Proof
end

