-- ==== Sys2Proof/Safety.lean ====
section
/-! DEFINITION. Safety.lean: the terms claims are stated in: what leaves do to the trace and the lines, what is requested of
the Timing Provider, when a run has ended, what is observed of it, and the invariants of the block. -/

namespace Sys2Proof.Machine

/-! ### What leaves do -/

/-- The event a leaf appends for an instance with descriptors `p`; CURSET and RAISE append none (R169, R185). -/
def leafEvents (p : Pins) : Leaf → List Event
  | .drive ln lvl => [.drive (pinOf p ln) lvl]
  | .delay n => [.delay n.toNat]
  | .curSet _ _ => []
  | .raise _ => []

/-- An operation's event sequence (R12). -/
def eventsOf (p : Pins) : List Leaf → List Event
  | [] => []
  | u :: us => leafEvents p u ++ eventsOf p us

/-- The events of one Enable pulse, written out from R103: high, 1 ms, low, 1 ms, high. -/
def pulseEvents (p : Pins) : List Event :=
  [.drive p.e .H, .delay 1, .drive p.e .L, .delay 1, .drive p.e .H]

/-- The events of one nibble, written out from R104: bit i on line Di, then the pulse. -/
def nibbleEvents (p : Pins) (v : Nibble) : List Event :=
  [.drive p.d0 (if v.getLsbD 0 then .H else .L), .drive p.d1 (if v.getLsbD 1 then .H else .L),
   .drive p.d2 (if v.getLsbD 2 then .H else .L), .drive p.d3 (if v.getLsbD 3 then .H else .L)] ++ pulseEvents p

/-- The events of one bus byte, written out from R120 and R121: RS, RW low, the high nibble `b[7:4]`, the low nibble `b[3:0]`. -/
def byteEvents (p : Pins) (rs : Level) (b : Byte) : List Event :=
  [.drive p.rs rs, .drive p.rw .L] ++ nibbleEvents p (b.extractLsb' 4 4) ++ nibbleEvents p (b.extractLsb' 0 4)

/-- The events of Begin, written out from R132 to R136. -/
def beginEvents (p : Pins) : List Event :=
  [.drive p.e .L, .drive p.rs .L, .drive p.rw .L, .delay 10]
    ++ byteEvents p .L 0x28#8 ++ [.delay 5]
    ++ byteEvents p .L 0x0F#8 ++ [.delay 5]
    ++ byteEvents p .L 0x06#8 ++ [.delay 5]
    ++ byteEvents p .L 0x01#8 ++ [.delay 1]
    ++ byteEvents p .L 0x02#8 ++ [.delay 1]
    ++ [.delay 500]

/-- The levels after a list of events (R31). -/
def replayFrom (lv : List (Pin × Level)) : List Event → List (Pin × Level)
  | [] => lv
  | e :: es => replayFrom (levelsAfter lv e) es

/-- The cursor after leaves, from `(r, c)` (R169). -/
def cursorAfter (r c : Byte) : List Leaf → Byte × Byte
  | [] => (r, c)
  | .curSet row col :: us => cursorAfter (row.setWidth 8) col us
  | .drive _ _ :: us => cursorAfter r c us
  | .delay _ :: us => cursorAfter r c us
  | .raise _ :: us => cursorAfter r c us

/-- The state after leaves that go on, performed on the active instance `slot`: the events are appended (R12), the levels
follow them (R31), the slot holds the last cursor written (R169), and nothing else changes. -/
def afterLeaves (slot : Slot) (us : List Leaf) (s : State) : State :=
  { s with
    level := replayFrom s.level (eventsOf slot.pins us)
    trace := s.trace ++ eventsOf slot.pins us
    insts := s.insts.setIfInBounds s.active.toNat
      { slot with row := (cursorAfter slot.row slot.col us).1, col := (cursorAfter slot.row slot.col us).2 } }

/-- A leaf of an expansion that goes on: no RAISE, no DELAY 0. -/
def leafGoesOn : Leaf → Bool
  | .drive _ _ => true
  | .delay n => n != 0#12
  | .curSet _ _ => true
  | .raise _ => false

/-- The cursor index `row × DW + col` (R163). -/
def cursorIndex (dw : Nat) (r c : Byte) : Nat := r.toNat * dw + c.toNat

/-- The cursor is on the display (R29, R30). -/
def cursorOk (dw : Nat) (r c : Byte) : Bool := decide (r.toNat < Config.displayRows) && decide (c.toNat < dw)

/-- The characters PutStr sends: the bytes before the first zero (R166). -/
def beforeZero (str : List Byte) : List Byte := str.takeWhile (· != 0#8)

/-! ### Requested time (R225, R60) -/

/-- The milliseconds a list of events requests. -/
def requestedMs : List Event → Nat
  | [] => 0
  | .delay n :: es => n + requestedMs es
  | .drive _ _ :: es => requestedMs es

/-- How many `delay` events. -/
def delayEvents : List Event → Nat
  | [] => 0
  | .delay _ :: es => delayEvents es + 1
  | .drive _ _ :: es => delayEvents es

/-- How many `drive` events. -/
def driveEvents : List Event → Nat
  | [] => 0
  | .delay _ :: es => driveEvents es
  | .drive _ _ :: es => driveEvents es + 1

/-- `ds` are real elapsed times the Timing Provider may take for the delays of `es`: one draw `d ≥ n` for each `delay(n)`,
and nothing more is known of it (R60, R197). The spec gives the draw no type: that it is a whole number of milliseconds is a
DESIGN CHOICE, log entry 21; unsafe for a claim that uses it. -/
def elapsedFits : List Event → List Nat → Bool
  | [], ds => ds.isEmpty
  | .drive _ _ :: es, ds => elapsedFits es ds
  | .delay _ :: _, [] => false
  | .delay n :: es, d :: ds => decide (n ≤ d) && elapsedFits es ds

/-! ### Observation and the end of a run (R12, R17) -/

/-- What is observed of a run (R17): the trace, the values returned, the registers, and `fault`. The model's own `host`,
`drawCount` and `busIn` are no part of it. -/
structure Observation where
  trace : List Event
  returns : List Return
  fault : Option FaultCode
  busy : Bool
  active : Handle
  pending : List UopWord
  insts : Vector Slot 15
  level : List (Pin × Level)
  deriving DecidableEq, Repr

/-- The observation of a state (R17). -/
def observe (s : State) : Observation :=
  ⟨s.trace, s.returns, s.fault, s.busy, s.active, s.pending, s.insts, s.level⟩

/-- A move that presents a request. -/
def HostMove.isPresent : HostMove → Bool
  | .present _ _ => true
  | .pass => false
  | .await => false

/-- The host issues no further request (R17): none of its moves to come presents one, and no bus byte is handed in. -/
def noFurtherRequest (s : State) : Bool := s.host.all (fun m => !m.isPresent) && s.busIn.isNone

/-- A run has ended (R17): idle with no further request, or halted. -/
def runEnded (s : State) : Bool := s.fault.isSome || (!s.busy && noFurtherRequest s)

/-- Ready to accept a request (R180): idle and not halted. -/
def ready (s : State) : Bool := s.fault.isNone && !s.busy

/-- The handle operand of a request; INIT and what is no request have none (R71, R130). -/
def requestHandle : Instr → Option Handle
  | .beginInit h => some h
  | .clearScreen h => some h
  | .home h => some h
  | .setCursor h _ _ => some h
  | .putChar h _ => some h
  | .putStr h _ => some h
  | .init _ => none
  | .drive _ _ => none
  | .delay _ => none
  | .enablePulse => none
  | .writeNibble _ => none
  | .sendCommand _ => none
  | .sendData _ => none
  | .curSet _ _ => none
  | .raise _ => none
  | .cmdFunctionSet => none
  | .cmdDisplayControl => none
  | .cmdEntryMode => none
  | .cmdClear => none
  | .cmdHome => none
  | .cmdSetDdramAddr _ => none
  | .dataWrite _ => none

/-- A block that is ready (R180), no input waiting, and whose host presents nothing further (R219). -/
def quiet (s : State) : Prop := s.fault = none ∧ s.busy = false ∧ s.busIn = none ∧ s.host = []

/-- The instruction `i` on instance `h`, whose slot is `slot`, is accepted, and `k` steps later the call has returned: the
events `evs` are appended and the levels follow them, the cursor of `h` is `(r, c)`, `active` is `h`, and nothing else
changed. -/
def RunsTo (i : Instr) (h : Handle) (slot : Slot) (k : Nat) (evs : List Event) (r c : Byte) (s : State) : Prop :=
  ∃ s1, exec i s = .next s1 ∧
    Sys2Proof.core.run k s1 = .next
      { s with
        active := h
        pending := []
        level := replayFrom s.level evs
        trace := s.trace ++ evs
        insts := s.insts.setIfInBounds h.toNat { slot with row := r, col := c }
        returns := s.returns ++ [.completed] }

/-- Seven pairwise distinct descriptors: where the latch observation is defined (R106). -/
def pinsDistinct (p : Pins) : Bool :=
  decide [p.e, p.rs, p.rw, p.d0, p.d1, p.d2, p.d3].Nodup

/-- The reading of a driven level. -/
def seenOf : Level → Seen
  | .L => .L
  | .H => .H

/-! ### Invariants -/

/-- A word the block generates in `pending` (R24, R80): DRIVE, but never RW high (R122); DELAY of one of the five constants
(R83); CURSET on the display (R170); RAISE of STRING_UNTERMINATED (R184, R186). -/
def leafOk (w : UopWord) : Bool :=
  match decodeUop w with
  | .ok (.drive ln lvl) => !(ln == .RW && lvl == .H)
  | .ok (.delay n) => n == 1#12 || n == 5#12 || n == 10#12 || n == 500#12
  | .ok (.curSet row col) => (Instr.curSet row col).wellFormed
  | .ok (.raise c) => c == .stringUnterminated
  | _ => false

/-- A present slot exists and its cursor is on the display (R26, R29, R30). -/
def slotOk (h : Fin 15) (slot : Slot) : Bool :=
  !slot.present || (decide (h.val < Config.instanceCount) && cursorOk Config.displayWidth slot.row slot.col)

/-- The invariant of the block: what holds between any two steps of a run. -/
structure BlockInv (s : State) : Prop where
  /-- `pending` holds only words the block generates. -/
  pending_ok : ∀ w ∈ s.pending, leafOk w = true
  /-- "Between requests `pending` is empty" (R24). -/
  idle_empty : s.busy = false → s.pending = []
  /-- "While `busy = 1`, `active` always names a present instance" (R182). -/
  busy_active : s.busy = true → (instOf s s.active).isSome = true
  /-- Every present slot exists, with its cursor on the display (R26, R29, R30). -/
  slots_ok : ∀ h : Fin 15, slotOk h s.insts[h] = true

/-- The lines' invariant: `level` is canonical, is what the trace drove (R31), and every wait is of at least 1 ms (R32). -/
structure LineInv (s : State) : Prop where
  canonical : levelsWf s.level = true
  replayed : s.level = replayFrom [] s.trace
  waits : ∀ n, Event.delay n ∈ s.trace → 1 ≤ n

end Sys2Proof.Machine
end

