-- ==== Sys2Proof/Certificates/Slice0/Obligations.lean ====
section
/-! DEFINITION. Certificates/Slice0/Obligations.lean: the statements for the provers, in the order of the spec's files: encoding,
the step, reset, the signal driver and transmitter, the latch, the operations, faults, the invariants. -/

open Sys2Proof Sys2Proof.Machine

/-! ### Encoding (30_encoding.md) -/

/-- Decoding the code of a well-formed instruction gives it back, for every constructor and every operand (R71, R81, R95). -/
def Obligations.DecodeEncodeRoundTrip : Prop :=
  ∀ i : Instr, i.wellFormed = true → decode (encode i) = .ok i

/-- Every code the decoder accepts is the one code of the instruction it reads: no bit and no side operand is ignored (R71,
R73, R81, R95). -/
def Obligations.AcceptedCodesAreCanonical : Prop :=
  ∀ (c : Code) (i : Instr), decode c = .ok i → encode i = c

/-- R73: a request is legal exactly when its OP is 0x0..0x6, it passes its row's mask test, and its side operand is of the
required kind; an illegal one, presented to a ready block, records ILLEGAL_REQUEST and does nothing else (the spec's decision
D16). -/
def Obligations.IllegalRequestsAreRejected : Prop :=
  (∀ (w : ReqWord) (side : Side), legalRequest w side = true ↔
    (opField w = 0x0#4 ∧ w &&& 0xFFFFFFFF#32 = 0x00000000#32 ∧ ∃ p, side = .pins p) ∨
    (opField w = 0x1#4 ∧ w &&& 0xFFFFFF0F#32 = 0x00000001#32 ∧ side = .none) ∨
    (opField w = 0x2#4 ∧ w &&& 0xFFFFFF0F#32 = 0x00000002#32 ∧ side = .none) ∨
    (opField w = 0x3#4 ∧ w &&& 0xFFFFFF0F#32 = 0x00000003#32 ∧ side = .none) ∨
    (opField w = 0x4#4 ∧ w &&& 0xFF00000F#32 = 0x00000004#32 ∧ side = .none) ∨
    (opField w = 0x5#4 ∧ w &&& 0xFFFF000F#32 = 0x00000005#32 ∧ side = .none) ∨
    (opField w = 0x6#4 ∧ w &&& 0xFFFFFF0F#32 = 0x00000006#32 ∧ ∃ str, side = .bytes str)) ∧
  (∀ (s : State) (w : ReqWord) (side : Side) (rest : List HostMove),
    s.fault = none → s.busy = false → s.busIn = none → s.host = .present w side :: rest →
    legalRequest w side = false →
    step s = .next { s with fault := some .illegalRequest, host := rest })

/-- A word is read as a micro-op exactly when it passes a row's mask test and its operand is one the decoder takes: DRIVE lines
0..6, DELAY n ≥ 1, RAISE codes 1..4 (R80 to R83; the rejections are item I17 of 93_implementation_defined.md), and every value of
the CURSET row's two fields: that a row or column off the display is read and run is log entry 15. -/
def Obligations.MicroOpsAreExactlyTheTableRows : Prop :=
  ∀ w : UopWord, (∃ i, decodeUop w = .ok i) ↔
    (w &&& 0xF0FE#16 = 0x0000#16 ∧ (w.extractLsb' 8 4).toNat ≤ 6) ∨
    (w &&& 0xF000#16 = 0x1000#16 ∧ 1 ≤ (w.extractLsb' 0 12).toNat) ∨
    w = 0x2000#16 ∨
    w &&& 0xFFF0#16 = 0x3000#16 ∨
    w &&& 0xFF00#16 = 0x4000#16 ∨
    w &&& 0xFF00#16 = 0x5000#16 ∨
    w &&& 0xF000#16 = 0x6000#16 ∨
    (w &&& 0xFFF8#16 = 0x7000#16 ∧ 1 ≤ (w.extractLsb' 0 3).toNat ∧ (w.extractLsb' 0 3).toNat ≤ 4)

/-- Words written out from the spec's tables (R71, R82, R83, R95; the vectors of 95_test_vectors.md) read as what they are. -/
def Obligations.SpecWordsDecode : Prop :=
  decodeRequest 0x00000021#32 .none = .ok (.beginInit 2#4) ∧
  decodeRequest 0x00030104#32 .none = .ok (.setCursor 0#4 1#8 3#8) ∧
  decodeRequest 0x00005805#32 .none = .ok (.putChar 0#4 0x58#8) ∧
  decodeRequest 0x00000006#32 (.bytes [0x41#8, 0x42#8, 0x00#8]) = .ok (.putStr 0#4 [0x41#8, 0x42#8, 0x00#8]) ∧
  decodeUop 0x0001#16 = .ok (.drive .E .H) ∧
  decodeUop 0x0501#16 = .ok (.drive .D2 .H) ∧
  decodeUop 0x11F4#16 = .ok (.delay 500#12) ∧
  decodeUop 0x4028#16 = .ok (.sendCommand 0x28#8) ∧
  decodeUop 0x6103#16 = .ok (.curSet 1#4 3#8) ∧
  decodeUop 0x7004#16 = .ok (.raise .stringUnterminated) ∧
  decodeBus 0x0C3#10 = .ok (.cmdSetDdramAddr 0x43#7) ∧
  decodeBus 0x241#10 = .ok (.dataWrite 0x41#8)

/-- R94, R95: every byte the block emits is read as one row of the bus-byte table: the five command bytes as themselves, the byte
SetCursor sends as CMD_SET_DDRAM_ADDR with an address the display has, every data byte as DATA_WRITE. The byte values are the
spec's, from general knowledge (log entry 13). -/
def Obligations.EmittedBytesAreTableRows : Prop :=
  decodeBus (0b00#2 ++ 0x28#8 : BusWord) = .ok .cmdFunctionSet ∧
  decodeBus (0b00#2 ++ 0x0F#8 : BusWord) = .ok .cmdDisplayControl ∧
  decodeBus (0b00#2 ++ 0x06#8 : BusWord) = .ok .cmdEntryMode ∧
  decodeBus (0b00#2 ++ 0x01#8 : BusWord) = .ok .cmdClear ∧
  decodeBus (0b00#2 ++ 0x02#8 : BusWord) = .ok .cmdHome ∧
  (∀ row column : Byte, ∃ addr : BitVec 7,
    ddramAddr (wrapRow row) (wrapColumn Config.displayWidth column) = addr ∧
    decodeBus (0b00#2 ++ setDdramByte addr : BusWord) = .ok (.cmdSetDdramAddr addr) ∧
    (Instr.cmdSetDdramAddr addr).wellFormed = true) ∧
  (∀ b : Byte, decodeBus (0b10#2 ++ b : BusWord) = .ok (.dataWrite b))

/-! ### The step (60_exceptions.md R180) -/

/-- A step of a block that has not halted runs the instruction it fetches: a request the host presents, the head of `pending`
while the host passes, waits or has no move left, or a bus byte handed in by itself (log entries 1 and 10). -/
def Obligations.StepRunsDecodedInstruction : Prop :=
  ∀ (s : State) (i : Instr), s.fault = none →
    (∀ w side rest, s.busIn = none → s.host = .present w side :: rest → decode (.request w side) = .ok i →
      step s = exec i { s with host := rest }) ∧
    (∀ w rest, s.busIn = none → s.host = [] → s.busy = true → s.pending = w :: rest → decode (.uop w) = .ok i →
      step s = exec i { s with pending := rest }) ∧
    (∀ w rest moves, s.busIn = none → s.host = .pass :: moves → s.busy = true → s.pending = w :: rest →
      decode (.uop w) = .ok i → step s = exec i { s with host := moves, pending := rest }) ∧
    (∀ w rest moves, s.busIn = none → s.host = .await :: moves → s.busy = true → s.pending = w :: rest →
      decode (.uop w) = .ok i → step s = exec i { s with pending := rest }) ∧
    (∀ w, s.busIn = some w → decode (.bus w) = .ok i → step s = exec i { s with busIn := none })

/-- R180: with nothing left in `pending`, the next step of a busy block to which the host presents nothing (it has no move left,
passes, or waits) completes the request and the call returns. The host's moves are log entry 1: a pass is used up, a wait is not
before the block is idle. -/
def Obligations.EmptyPendingCompletes : Prop :=
  ∀ s : State, s.fault = none → s.busIn = none → s.busy = true → s.pending = [] →
    (s.host = [] → step s = .next { s with busy := false, returns := s.returns ++ [.completed] }) ∧
    (∀ moves, s.host = .pass :: moves →
      step s = .next { s with busy := false, returns := s.returns ++ [.completed], host := moves }) ∧
    (∀ moves, s.host = .await :: moves →
      step s = .next { s with busy := false, returns := s.returns ++ [.completed] })

/-- R194: an idle block waits unchanged while the host presents nothing. That the wait is a step of the model is log entry 18. -/
def Obligations.IdleBlockWaits : Prop :=
  ∀ s : State, s.fault = none → s.busIn = none → s.busy = false →
    (s.host = [] → step s = .next s) ∧
    (∀ rest, s.host = .pass :: rest → step s = .next { s with host := rest }) ∧
    (∀ rest, s.host = .await :: rest → step s = .next { s with host := rest })

/-- Placing one instruction's code where the next step fetches it makes that step run it, a request on an idle block and a
micro-op or bus byte on a block with a present active instance (the model's own placing, log entry 12). -/
def Obligations.PlacedInstructionRunsNext : Prop :=
  ∀ (s : State) (c : Code) (i : Instr), decode c = .ok i →
    ∃ t, step (withCode s c) = exec i t ∧ t.fault = none ∧ t.busIn = none ∧
      t.trace = s.trace ∧ t.level = s.level ∧ t.pending = s.pending ∧ t.host = s.host ∧
      (∀ w side, c = .request w side → t.busy = false ∧ t.insts = s.insts ∧ t.active = s.active) ∧
      (∀ w, c = .uop w → t.busy = true ∧ (instOf t t.active).isSome = true) ∧
      (∀ w, c = .bus w → t.busy = s.busy ∧ (instOf t t.active).isSome = true)

/-! ### Reset (10_state.md R37, 70_reset_and_hazards.md R210, R211) -/

/-- R37: `fault` NONE (code 0), `busy` 0, `active` NONE (0xF), `pending` empty, no instance present, every line X, `trace` empty;
and no instance is named by any handle. -/
def Obligations.ResetValues : Prop :=
  faultBits State.reset.fault = 0#3 ∧ State.reset.fault = none ∧ State.reset.busy = false ∧
  State.reset.active = 0xF#4 ∧ State.reset.pending = [] ∧
  (∀ h : Fin 15, State.reset.insts[h].present = false) ∧
  (∀ h : Handle, instOf State.reset h = none) ∧
  (∀ p : Pin, levelOf State.reset.level p = .X) ∧ State.reset.trace = []

/-- R210: after reset the block starts nothing by itself: a step leaves it as it is. -/
def Obligations.ResetStartsNothing : Prop := step State.reset = .next State.reset

/-- The invariants of the block hold after reset. -/
def Obligations.ResetMeetsInvariants : Prop := BlockInv State.reset ∧ LineInv State.reset

/-! ### Signal driver and transmitter (40_signal_driver.md, 41_transmitter.md) -/

/-- R100: DRIVE, with its encoding, drives the one descriptor of the active instance's line and appends one event, also when the
line has that level already; no other descriptor's level, no register and no flag changes. One event whichever provider call it is: the spec's
decision D3. -/
def Obligations.DriveDrivesOneLine : Prop :=
  ∀ (s : State) (slot : Slot) (ln : Line) (lvl : Level), s.fault = none → instOf s s.active = some slot →
    encode (.drive ln lvl) =
      .uop (0x0000#16 ||| ((lineCode ln).setWidth 16 <<< 8) ||| (levelBit lvl).setWidth 16) ∧
    ∃ t, exec (.drive ln lvl) s = .next t ∧
      levelOf t.level (pinOf slot.pins ln) = seenOf lvl ∧
      (∀ q, q ≠ pinOf slot.pins ln → levelOf t.level q = levelOf s.level q) ∧
      t.trace = s.trace ++ [.drive (pinOf slot.pins ln) lvl] ∧
      t = { s with level := t.level, trace := t.trace }

/-- R102: DELAY n, n a positive number of milliseconds, with its encoding, appends `delay(n)` and changes nothing else. -/
def Obligations.DelayRequestsOneWait : Prop :=
  ∀ (s : State) (n : BitVec 12), s.fault = none → 1 ≤ n.toNat →
    encode (.delay n) = .uop (0x1000#16 ||| n.setWidth 16) ∧
    exec (.delay n) s = .next { s with trace := s.trace ++ [.delay n.toNat] }

/-- R103: ENABLEPULSE gives the waveform high, 1 ms, low, 1 ms, high, leaves E high, and changes no other line and no register.
That a routine runs to completion in one step is log entry 14; the 1 ms is the spec's decision D7. -/
def Obligations.EnablePulseWaveform : Prop :=
  ∀ (s : State) (slot : Slot), s.fault = none → instOf s s.active = some slot →
    ∃ t, exec .enablePulse s = .next t ∧
      t.trace = s.trace ++ [.drive slot.pins.e .H, .delay 1, .drive slot.pins.e .L, .delay 1, .drive slot.pins.e .H] ∧
      levelOf t.level slot.pins.e = .H ∧
      (∀ q, q ≠ slot.pins.e → levelOf t.level q = levelOf s.level q) ∧
      t = { s with level := t.level, trace := t.trace }

/-- R104, R105: WRITENIBBLE puts bit i of `v` on line Di, D0 first, then pulses Enable: 9 events. Where the seven descriptors
are distinct the data lines end at those levels and E high. One step: log entry 14. The order is the spec's decision D4. -/
def Obligations.WriteNibbleDrivesItsBits : Prop :=
  ∀ (s : State) (slot : Slot) (v : Nibble), s.fault = none → instOf s s.active = some slot →
    ∃ t, exec (.writeNibble v) s = .next t ∧
      t.trace = s.trace ++ nibbleEvents slot.pins v ∧ (nibbleEvents slot.pins v).length = 9 ∧
      levelOf t.level slot.pins.e = .H ∧
      (pinsDistinct slot.pins = true →
        ∀ (ln : Line) (i : Nat), (ln, i) ∈ [(Line.D0, 0), (Line.D1, 1), (Line.D2, 2), (Line.D3, 3)] →
          levelOf t.level (pinOf slot.pins ln) = if v.getLsbD i then .H else .L) ∧
      (∀ q, q ∉ [slot.pins.e, slot.pins.d0, slot.pins.d1, slot.pins.d2, slot.pins.d3] →
        levelOf t.level q = levelOf s.level q) ∧
      t = { s with level := t.level, trace := t.trace }

/-- R120, R121: SENDCOMMAND and SENDDATA drive RS (low, high), RW low, then send the high nibble and the low nibble: 20 events,
4 ms requested, E left high, and only the instance's seven lines change. One step: log entry 14. The order of the drives is the
spec's decisions D4 to D6. -/
def Obligations.SendByteFramesTwoNibbles : Prop :=
  ∀ (s : State) (slot : Slot) (b : Byte), s.fault = none → instOf s s.active = some slot →
    ∀ (i : Instr) (rs : Level), (i, rs) ∈ [(Instr.sendCommand b, Level.L), (Instr.sendData b, Level.H)] →
    ∃ t, exec i s = .next t ∧
      t.trace = s.trace ++ byteEvents slot.pins rs b ∧ (byteEvents slot.pins rs b).length = 20 ∧
      requestedMs (byteEvents slot.pins rs b) = 4 ∧
      levelOf t.level slot.pins.e = .H ∧
      (∀ q, (∀ ln, q ≠ pinOf slot.pins ln) → levelOf t.level q = levelOf s.level q) ∧
      t = { s with level := t.level, trace := t.trace }

/-- R85, R87 to R93, R95: each bus byte of the table is sent as its `(RS, b)`: the events of one SendCommand or SendData of `b`,
and only the lines change. The meaning of a bus byte by itself is log entry 10, the byte values are log entry 13, that an address
off the display is sent too is log entry 22. -/
def Obligations.BusBytesAreSent : Prop :=
  ∀ (s : State) (slot : Slot) (addr : BitVec 7) (d : Byte), s.fault = none → instOf s s.active = some slot →
    ∀ (i : Instr) (rs : Level) (b : Byte),
      (i, rs, b) ∈ [(Instr.cmdFunctionSet, Level.L, 0x28#8), (.cmdDisplayControl, .L, 0x0F#8), (.cmdEntryMode, .L, 0x06#8),
        (.cmdClear, .L, 0x01#8), (.cmdHome, .L, 0x02#8), (.cmdSetDdramAddr addr, .L, BitVec.ofNat 8 (0x80 + addr.toNat)),
        (.dataWrite d, .H, d)] →
      ∃ t, exec i s = .next t ∧
        t.trace = s.trace ++ byteEvents slot.pins rs b ∧
        t.level = replayFrom s.level (byteEvents slot.pins rs b) ∧
        t = { s with level := t.level, trace := t.trace }

/-! ### The latch observation (R106, R107, R124, R139) -/

/-- R107: with distinct descriptors, each nibble makes exactly one latch, of its own value, under the RS and RW levels its caller
left, whatever the level of E before it. -/
def Obligations.NibbleMakesOneLatch : Prop :=
  ∀ (p : Pins) (lv : List (Pin × Level)) (v : Nibble), pinsDistinct p = true →
    edges p lv (nibbleEvents p v) =
      [.latch { nibbleTransfer .L v with rs := levelOf lv p.rs, rw := levelOf lv p.rw }]

/-- R124, the framing law: with distinct descriptors, one SendCommand or SendData makes exactly two latches, `{rs, 0, b[7:4]}` and
then `{rs, 0, b[3:0]}`, from any levels; what the controller receives admits one reading. -/
def Obligations.FramingLaw : Prop :=
  ∀ (p : Pins) (lv : List (Pin × Level)) (rs : Level) (b : Byte), pinsDistinct p = true →
    edges p lv (byteEvents p rs b) =
      [.latch (nibbleTransfer (seenOf rs) (b.extractLsb' 4 4)), .latch (nibbleTransfer (seenOf rs) (b.extractLsb' 0 4))] ∧
    readings (edges p lv (byteEvents p rs b)) = [byteTransfers (seenOf rs) b]

/-- R139: with distinct descriptors, Begin latches exactly the ten transfers (0,0,2) (0,0,8) (0,0,0) (0,0,F) (0,0,0) (0,0,6)
(0,0,0) (0,0,1) (0,0,0) (0,0,2); before them step 1's drive of E low latches the levels as they stood when E was H, may latch
them when E was X, and latches nothing when E was L. The nibbles are those of the command bytes of log entry 13. -/
def Obligations.BeginLatchSequence : Prop :=
  ∀ (p : Pins) (lv : List (Pin × Level)), pinsDistinct p = true →
    let ten := [0x2#4, 0x8#4, 0x0#4, 0xF#4, 0x0#4, 0x6#4, 0x0#4, 0x1#4, 0x0#4, 0x2#4].map (nibbleTransfer .L)
    (levelOf lv p.e = .L → readings (edges p lv (beginEvents p)) = [ten]) ∧
    (levelOf lv p.e = .H → readings (edges p lv (beginEvents p)) = [sample p lv :: ten]) ∧
    (levelOf lv p.e = .X → readings (edges p lv (beginEvents p)) = [sample p lv :: ten, ten])

/-- R166, R167, R93 at the latch: with distinct descriptors, PutStr latches the bytes before the first zero and nothing else, each
unchanged as a data byte, high nibble first, from any levels and any cursor. -/
def Obligations.PutStrLatchesItsCharacters : Prop :=
  ∀ (p : Pins) (lv : List (Pin × Level)) (dw : Nat) (r c : Byte) (str : List Byte), pinsDistinct p = true →
    readings (edges p lv (eventsOf p (putStrLeaves dw r c str))) = [(beforeZero str).flatMap (byteTransfers .H)]

/-! ### Operations (42_initializer.md, 43_cursor_output.md) -/

/-- A sequence of leaves in `pending` with no fault in it runs to completion: after one step for each leaf and one more the block
is idle, the call has returned, the events are appended in order (R12, R58), the levels follow them (R31), the active
instance's cursor is the last one written (R169), and nothing else has changed. A CURSET leaf off the display, which the block
never generates, is run too: log entry 15. -/
def Obligations.PendingRunsToCompletion : Prop :=
  ∀ (s : State) (slot : Slot) (us : List Leaf), s.fault = none → s.busIn = none → s.host = [] → s.busy = true →
    s.pending = us.map leafWord → (∀ u ∈ us, leafGoesOn u = true) → instOf s s.active = some slot →
    Sys2Proof.core.run (us.length + 1) s = .next
      { s with
        busy := false
        pending := []
        level := replayFrom s.level (eventsOf slot.pins us)
        trace := s.trace ++ eventsOf slot.pins us
        insts := s.insts.setIfInBounds s.active.toNat
          { slot with row := (cursorAfter slot.row slot.col us).1, col := (cursorAfter slot.row slot.col us).2 }
        returns := s.returns ++ [.completed] }

/-- R130, R131, R199: INIT on a ready block: with no slot below N_INST free it returns NONE and changes nothing; else it takes
the lowest free slot, and the draw decides: allocated, that slot is present with the descriptors P and cursor (0,0), and its
index is returned; not allocated, NONE is returned and no slot changes. No line, no event, not `active`. The draw is a free
value (log entry 2); the statement holds for both. -/
def Obligations.InitAllocatesLowestFreeSlot : Prop :=
  ∀ (s : State) (p : Pins), s.fault = none → s.busy = false →
    ((∀ k : Fin 15, k.val < Config.instanceCount → s.insts[k].present = true) →
      exec (.init p) s = .next { s with returns := s.returns ++ [.handle 0xF#4] }) ∧
    (∀ h : Fin 15, h.val < Config.instanceCount → s.insts[h].present = false →
      (∀ k : Fin 15, k < h → s.insts[k].present = true) →
      exec (.init p) s = .next
        (if Config.drawAlloc s.drawCount then
          { s with
            drawCount := s.drawCount + 1
            insts := s.insts.set h.val ⟨true, p, 0#8, 0#8⟩
            returns := s.returns ++ [.handle (BitVec.ofNat 4 h.val)] }
        else { s with drawCount := s.drawCount + 1, returns := s.returns ++ [.handle 0xF#4] }))

/-- R132 to R141: BEGIN on a present instance of a quiet block runs its 112 leaves: the 110 events of the seven steps, cursor
(0,0), and completes; the same whether or not the instance was begun before (R141). The byte values are log entry 13. -/
def Obligations.BeginRunsItsSequence : Prop :=
  ∀ (s : State) (h : Handle) (slot : Slot), quiet s → instOf s h = some slot →
    RunsTo (.beginInit h) h slot 113 (beginEvents slot.pins) 0#8 0#8 s ∧ (beginEvents slot.pins).length = 110

/-- R138: after the events of Begin, with distinct descriptors, E is H, RS and RW are L, and D0..D3 are L, H, L, L, from any
levels. The data lines hold the low nibble of the byte 0x02 of log entry 13. -/
def Obligations.BeginLeavesLines : Prop :=
  ∀ (p : Pins) (lv : List (Pin × Level)), pinsDistinct p = true →
    ∀ (ln : Line) (v : Seen),
      (ln, v) ∈ [(Line.E, Seen.H), (.RS, .L), (.RW, .L), (.D0, .L), (.D1, .H), (.D2, .L), (.D3, .L)] →
      levelOf (replayFrom lv (beginEvents p)) (pinOf p ln) = v

/-- R140: Begin expands to 112 leaves; its 110 events are 27 delays and 83 drives, and request 547 ms. The events it expands to
hold the command bytes of log entry 13. -/
def Obligations.BeginCounts : Prop :=
  beginLeaves.length = 112 ∧ ∀ p : Pins, eventsOf p beginLeaves = beginEvents p ∧ (beginEvents p).length = 110 ∧
    delayEvents (beginEvents p) = 27 ∧ driveEvents (beginEvents p) = 83 ∧ requestedMs (beginEvents p) = 547

/-- R150: CLEARSCREEN on a present instance of a quiet block sends the clear command, waits 1 ms and leaves the cursor (0,0),
whatever it was. The byte value is log entry 13. -/
def Obligations.ClearScreenRuns : Prop :=
  ∀ (s : State) (h : Handle) (slot : Slot), quiet s → instOf s h = some slot →
    RunsTo (.clearScreen h) h slot 23 (byteEvents slot.pins .L 0x01#8 ++ [.delay 1]) 0#8 0#8 s

/-- R152: HOME on a present instance of a quiet block sends the return-home command, waits 1 ms and leaves the cursor (0,0). The
byte value is log entry 13. -/
def Obligations.HomeRuns : Prop :=
  ∀ (s : State) (h : Handle) (slot : Slot), quiet s → instOf s h = some slot →
    RunsTo (.home h) h slot 23 (byteEvents slot.pins .L 0x02#8 ++ [.delay 1]) 0#8 0#8 s

/-- R153: two consecutive HOME requests append the same events and leave the same cursor and the same level on every line both
times. -/
def Obligations.HomeIsIdempotent : Prop :=
  ∀ (s : State) (h : Handle) (slot : Slot), quiet s → instOf s h = some slot →
    ∃ s1 t1 s2 t2 evs,
      exec (.home h) s = .next s1 ∧ Sys2Proof.core.run 23 s1 = .next t1 ∧
      exec (.home h) t1 = .next s2 ∧ Sys2Proof.core.run 23 s2 = .next t2 ∧
      t1.trace = s.trace ++ evs ∧ t2.trace = t1.trace ++ evs ∧
      t1.insts = t2.insts ∧ (∀ p, levelOf t1.level p = levelOf t2.level p) ∧
      (∃ slot1, instOf t1 h = some slot1 ∧ slot1.row = 0#8 ∧ slot1.col = 0#8)

/-- R155 to R158: SETCURSOR on a present instance of a quiet block sends the command byte 0x80 + address, address =
(column mod DW) + (0x40 when row mod 2 is 1), waits 1 ms and stores (row mod 2, column mod DW); no operand is rejected. The
byte value 0x80 is log entry 13. -/
def Obligations.SetCursorRuns : Prop :=
  ∀ (s : State) (h : Handle) (slot : Slot) (row column : Byte), quiet s → instOf s h = some slot →
    RunsTo (.setCursor h row column) h slot 23
      (byteEvents slot.pins .L (BitVec.ofNat 8 (0x80 + (column.toNat % Config.displayWidth
          + if row.toNat % 2 = 1 then 0x40 else 0))) ++ [.delay 1])
      (BitVec.ofNat 8 (row.toNat % 2)) (BitVec.ofNat 8 (column.toNat % Config.displayWidth)) s

/-- R155: SetCursor does with a column what it does with that column mod DW, in every state; on a display of 16 columns
SetCursor(0, 16) has the expansion of SetCursor(0, 0). -/
def Obligations.SetCursorWrapsColumn : Prop :=
  (∀ (s : State) (h : Handle) (row column : Byte),
    exec (.setCursor h row column) s
      = exec (.setCursor h row (BitVec.ofNat 8 (column.toNat % Config.displayWidth))) s) ∧
  setCursorLeaves 16 0#8 16#8 = setCursorLeaves 16 0#8 0#8

/-- R156: SetCursor does with a row what it does with that row mod 2, in every state (the spec's decision D11). -/
def Obligations.SetCursorWrapsRow : Prop :=
  ∀ (s : State) (h : Handle) (row column : Byte),
    exec (.setCursor h row column) s = exec (.setCursor h (BitVec.ofNat 8 (row.toNat % 2)) column) s

/-- R162: PUTCHAR on a present instance of a quiet block, its cursor on the display, sends the byte as data, waits 1 ms and
advances the cursor: at the last column of the last row to (0,0), at the last column of row 0 to (1,0), else one column right. -/
def Obligations.PutCharRuns : Prop :=
  ∀ (s : State) (h : Handle) (slot : Slot) (b : Byte), quiet s → instOf s h = some slot →
    cursorOk Config.displayWidth slot.row slot.col = true →
    ∃ r c : Byte,
      RunsTo (.putChar h b) h slot 23 (byteEvents slot.pins .H b ++ [.delay 1]) r c s ∧
      (r.toNat, c.toNat) =
        if slot.col.toNat = Config.displayWidth - 1 then
          (if slot.row.toNat = 1 then (0, 0) else (slot.row.toNat + 1, 0))
        else (slot.row.toNat, slot.col.toNat + 1)

/-- R163, R170: on a display of any width, PutChar's advance maps the cursor index k = row × DW + col to (k + 1) mod (DW × 2) and
keeps the cursor on the display. -/
def Obligations.AdvanceIsCircular : Prop :=
  ∀ (dw : Nat) (r c : Byte), 1 ≤ dw → dw ≤ 64 → cursorOk dw r c = true →
    cursorIndex dw (advance dw r c).1 (advance dw r c).2 = (cursorIndex dw r c + 1) % (dw * 2) ∧
    cursorOk dw (advance dw r c).1 (advance dw r c).2 = true

/-- R164: from every cursor, a wrap or not, PutChar sends its data byte and nothing else: no command byte, for RS is never
driven low. -/
def Obligations.PutCharSendsNoCommand : Prop :=
  ∀ (p : Pins) (dw : Nat) (r c b : Byte),
    eventsOf p (putCharLeaves dw r c b) = byteEvents p .H b ++ [.delay 1] ∧
    Leaf.drive .RS .L ∉ putCharLeaves dw r c b

/-- R166, R168: PUTSTR of a sequence with a zero byte, on a present instance of a quiet block with its cursor on the display,
sends the characters before the first zero and nothing after it, each followed by 1 ms, and completes in 22 steps a character
and one more; the cursor index moves on by their number, circularly. -/
def Obligations.PutStrRuns : Prop :=
  ∀ (s : State) (h : Handle) (slot : Slot) (str : List Byte), quiet s → instOf s h = some slot →
    cursorOk Config.displayWidth slot.row slot.col = true → 0#8 ∈ str →
    ∃ r c : Byte,
      RunsTo (.putStr h str) h slot (22 * (beforeZero str).length + 1)
        ((beforeZero str).flatMap fun b => byteEvents slot.pins .H b ++ [.delay 1]) r c s ∧
      cursorIndex Config.displayWidth r c
        = (cursorIndex Config.displayWidth slot.row slot.col + (beforeZero str).length) % (Config.displayWidth * 2) ∧
      cursorOk Config.displayWidth r c = true

/-- R166, R184, R189: PUTSTR of a sequence with no zero byte performs the bodies of all its bytes and then raises
STRING_UNTERMINATED: after 22 steps a byte and one more, `fault` holds code 4, the call has not returned (`busy` stays 1,
`pending` is empty), exactly the bodies' events are in the trace and the levels follow them, the instance's cursor is the last
body's, and nothing else has changed; from a cursor on the display the cursor index has moved on by the number of bytes,
circularly. -/
def Obligations.UnterminatedStringFaults : Prop :=
  ∀ (s : State) (h : Handle) (slot : Slot) (str : List Byte), quiet s → instOf s h = some slot → 0#8 ∉ str →
    let evs := str.flatMap fun b => byteEvents slot.pins .H b ++ [.delay 1]
    ∃ (s1 t : State) (r c : Byte), exec (.putStr h str) s = .next s1 ∧
      Sys2Proof.core.run (22 * str.length + 1) s1 = .next t ∧
      t = { s with
        fault := some .stringUnterminated
        busy := true
        active := h
        pending := []
        level := replayFrom s.level evs
        trace := s.trace ++ evs
        insts := s.insts.setIfInBounds h.toNat { slot with row := r, col := c } } ∧
      faultBits t.fault = 4#3 ∧
      (cursorOk Config.displayWidth slot.row slot.col = true →
        cursorIndex Config.displayWidth r c
          = (cursorIndex Config.displayWidth slot.row slot.col + str.length) % (Config.displayWidth * 2) ∧
        cursorOk Config.displayWidth r c = true)

/-- R166, R55: the expansion of PutStr is the spec's loop over MemRead: at index i, the end of the sequence raises
STRING_UNTERMINATED, a zero byte ends the loop, and any other byte is sent and the loop goes on at i + 1. -/
def Obligations.PutStrReadsByMemRead : Prop :=
  ∀ (dw : Nat) (r c : Byte) (str : List Byte) (i : Nat), i ≤ str.length →
    putStrLeaves dw r c (str.drop i) =
      match memRead str i with
      | .error f => [.raise f]
      | .ok b =>
        if b = 0#8 then []
        else putCharLeaves dw r c b
          ++ putStrLeaves dw (advance dw r c).1 (advance dw r c).2 (str.drop (i + 1))

/-- R169: CURSET, with its encoding, writes the two cursor fields of the active instance; no event, no line, no other slot and no
other field changes. R169's operands are on the display; that its pseudo-code also runs off the display is log entry 15. -/
def Obligations.CurSetWritesCursor : Prop :=
  ∀ (s : State) (slot : Slot) (row : BitVec 4) (col : Byte), s.fault = none → instOf s s.active = some slot →
    encode (.curSet row col) = .uop (0x6000#16 ||| (row.setWidth 16 <<< 8) ||| col.setWidth 16) ∧
    ∃ t, exec (.curSet row col) s = .next t ∧
      instOf t t.active = some { slot with row := row.setWidth 8, col := col } ∧
      (∀ k : Nat, k ≠ s.active.toNat → t.insts[k]? = s.insts[k]?) ∧
      t = { s with insts := t.insts }

/-- R36: after the events of any operation that pulsed Enable, E is left high, aliased descriptors or not, from any levels. -/
def Obligations.EnableLeftHigh : Prop :=
  ∀ (p : Pins) (lv : List (Pin × Level)) (dw : Nat) (r c a b : Byte) (str : List Byte), beforeZero str ≠ [] →
    ∀ us ∈ [beginLeaves, clearScreenLeaves, homeLeaves, setCursorLeaves dw a b, putCharLeaves dw r c b,
        putStrLeaves dw r c str],
      levelOf (replayFrom lv (eventsOf p us)) p.e = .H

/-- R225: the requested-delay table: events and milliseconds of each operation, for every operand. -/
def Obligations.RequestedDelayTable : Prop :=
  ∀ (p : Pins) (dw : Nat) (r c row column b : Byte) (v : Nibble) (str : List Byte),
    let row4 := fun us : List Leaf =>
      (delayEvents (eventsOf p us), driveEvents (eventsOf p us), us.length, requestedMs (eventsOf p us))
    row4 enablePulseLeaves = (2, 3, 5, 2) ∧ row4 (writeNibbleLeaves v) = (2, 7, 9, 2) ∧
    row4 (sendCommandLeaves b) = (4, 16, 20, 4) ∧ row4 (sendDataLeaves b) = (4, 16, 20, 4) ∧
    row4 beginLeaves = (27, 83, 112, 547) ∧
    row4 clearScreenLeaves = (5, 16, 22, 5) ∧ row4 homeLeaves = (5, 16, 22, 5) ∧
    row4 (setCursorLeaves dw row column) = (5, 16, 22, 5) ∧ row4 (putCharLeaves dw r c b) = (5, 16, 22, 5) ∧
    (0#8 ∈ str → row4 (putStrLeaves dw r c str) =
      (5 * (beforeZero str).length, 16 * (beforeZero str).length, 22 * (beforeZero str).length,
        5 * (beforeZero str).length)) ∧
    (0#8 ∉ str → row4 (putStrLeaves dw r c str) =
      (5 * str.length, 16 * str.length, 22 * str.length + 1, 5 * str.length))

/-- R60, R225: whatever real times the Timing Provider takes for the delays an expansion requests, one `d ≥ n` for each
`delay(n)`, their sum is at least the milliseconds of the requested-delay table; and there is no upper bound: for every expansion
of the first nine rows each sum from there up can occur. That `d ≥ n` is the spec's assumption about the provider (log entry 16),
that `d` is a whole number of milliseconds is log entry 21. -/
def Obligations.ElapsedAtLeastRequested : Prop :=
  ∀ (p : Pins) (dw : Nat) (r c row column b : Byte) (v : Nibble) (str : List Byte),
    (∀ (us : List Leaf) (ms : Nat),
      (us, ms) ∈ [(enablePulseLeaves, 2), (writeNibbleLeaves v, 2), (sendCommandLeaves b, 4), (sendDataLeaves b, 4),
        (beginLeaves, 547), (clearScreenLeaves, 5), (homeLeaves, 5), (setCursorLeaves dw row column, 5),
        (putCharLeaves dw r c b, 5)] →
      (∀ ds : List Nat, elapsedFits (eventsOf p us) ds = true → ms ≤ ds.sum) ∧
      (∀ total : Nat, ms ≤ total → ∃ ds : List Nat, elapsedFits (eventsOf p us) ds = true ∧ ds.sum = total)) ∧
    (0#8 ∈ str → ∀ ds : List Nat, elapsedFits (eventsOf p (putStrLeaves dw r c str)) ds = true →
      5 * (beforeZero str).length ≤ ds.sum) ∧
    (0#8 ∉ str → ∀ ds : List Nat, elapsedFits (eventsOf p (putStrLeaves dw r c str)) ds = true →
      5 * str.length ≤ ds.sum)

/-! ### Faults (60_exceptions.md) -/

/-- R185: RAISE, with its encoding, records its code in `fault`, once NONE, and changes nothing else; a block whose `fault` holds
a code is halted: no step and no instruction has an effect, and nothing clears the code (the spec's decision D19). That what has
no step answers the fault `halted` is log entry 7; routines and bus bytes as instructions of their own are log entries 14 and
10. -/
def Obligations.RaiseHaltsTheBlock : Prop :=
  (∀ (s : State) (c : FaultCode), s.fault = none →
    encode (.raise c) = .uop (0x7000#16 ||| (faultCodeBits c).setWidth 16) ∧
    exec (.raise c) s = .next { s with fault := some c }) ∧
  (∀ (s : State) (c : FaultCode), s.fault = some c →
    step s = .fault (.halted c) ∧ ∀ i : Instr, exec i s = .fault (.halted c))

/-- R188: a presented request raises only the first of REENTRY (the block is busy, whatever the request), ILLEGAL_REQUEST,
ABSENT_HANDLE that holds, records its code and does nothing else; where none holds its acceptance raises none, so that
STRING_UNTERMINATED, which arises after acceptance, never competes (the spec's decision D20). -/
def Obligations.FaultPriority : Prop :=
  ∀ (s : State) (w : ReqWord) (side : Side) (rest : List HostMove),
    s.fault = none → s.busIn = none → s.host = .present w side :: rest →
    (s.busy = true → step s = .next { s with fault := some .reentry, host := rest }) ∧
    (s.busy = false → legalRequest w side = false →
      step s = .next { s with fault := some .illegalRequest, host := rest }) ∧
    (∀ i h, s.busy = false → decodeRequest w side = .ok i → requestHandle i = some h → instOf s h = none →
      step s = .next { s with fault := some .absentHandle, host := rest }) ∧
    (∀ i, s.busy = false → decodeRequest w side = .ok i → (∀ h, requestHandle i = some h → instOf s h ≠ none) →
      ∃ t, step s = .next t ∧ t.fault = none)

/-- R26, R182: a handle names no instance exactly when it is at or above N_INST or its slot is not present, NONE always; each
operation with a handle then records ABSENT_HANDLE and does nothing else. -/
def Obligations.AbsentHandlesAreRejected : Prop :=
  (∀ (s : State) (h : Handle), instOf s h = none ↔
    Config.instanceCount ≤ h.toNat ∨ ∃ slot, s.insts[h.toNat]? = some slot ∧ slot.present = false) ∧
  (∀ s : State, instOf s 0xF#4 = none) ∧
  (∀ (s : State) (i : Instr) (h : Handle), s.fault = none → s.busy = false → requestHandle i = some h →
    instOf s h = none → exec i s = .next { s with fault := some .absentHandle })

/-! ### Invariants -/

/-- The invariant of the block: every step keeps that `pending` holds only words the block generates (R80, R83, R122, R170, R184)
and is empty between requests (R24), that `active` names a present instance while busy (R182), and that every present slot
exists and has its cursor on the display (R29, R30). -/
def Obligations.StepKeepsInvariant : Prop :=
  ∀ s t : State, BlockInv s → step s = .next t → BlockInv t

/-- The invariant of the lines: every step keeps `level` canonical and equal to what the trace drove last on each descriptor
(R31), and every requested wait at least 1 ms (R32). -/
def Obligations.StepKeepsLineInvariant : Prop :=
  ∀ s t : State, LineInv s → step s = .next t → LineInv t

/-- R32: the trace is append-only: no step removes or reorders an event. -/
def Obligations.TraceIsAppendOnly : Prop :=
  ∀ s t : State, step s = .next t → ∃ es, t.trace = s.trace ++ es

/-- R26, R28: every step keeps a present instance present, and never changes its descriptors. -/
def Obligations.InstancesAndPinsPersist : Prop :=
  ∀ s t : State, step s = .next t → ∀ h : Fin 15, s.insts[h].present = true →
    t.insts[h].present = true ∧ t.insts[h].pins = s.insts[h].pins

/-- R200: a step changes nothing of a present instance other than the active one. -/
def Obligations.OtherInstancesUntouched : Prop :=
  ∀ s t : State, step s = .next t → ∀ h : Fin 15, s.insts[h].present = true → h.val ≠ s.active.toNat →
    t.insts[h] = s.insts[h]

/-- R122: a descriptor that present instances use only as RW never comes to read H by a step: every drive of RW the block makes is
low. -/
def Obligations.RwNeverDrivenHigh : Prop :=
  ∀ (s t : State) (q : Pin), BlockInv s → step s = .next t →
    (∀ (h : Handle) (slot : Slot) (ln : Line), instOf s h = some slot → ln ≠ .RW → pinOf slot.pins ln ≠ q) →
    levelOf s.level q ≠ .H → levelOf t.level q ≠ .H

/-- R25: only the acceptance of a request other than Init writes `active`: a step that changes it took the block from idle to
busy, on that handle, a present instance. -/
def Obligations.OnlyAcceptanceWritesActive : Prop :=
  ∀ s t : State, step s = .next t → t.active ≠ s.active →
    s.busy = false ∧ t.busy = true ∧ (instOf t t.active).isSome = true ∧ t.trace = s.trace ∧
    ∃ w side rest i, s.host = .present w side :: rest ∧ decodeRequest w side = .ok i ∧ requestHandle i = some t.active

/-! ### The end of a run (00_scope.md R17) -/

/-- R17: a run has ended when the block is idle and the host issues no further request, whether it has no move left or only
passes and waits, or when the block has halted. Once ended it stays so, and the observation of the run is final: no step changes
the trace, the values returned, a register or `fault`. That an idle block has a step at all is log entry 18, that a halted one
answers a fault is log entry 7. -/
def Obligations.EndedRunIsFinal : Prop :=
  ∀ s : State,
    (s.fault = none → (runEnded s = true ↔
      s.busy = false ∧ s.busIn = none ∧ ∀ w side, HostMove.present w side ∉ s.host)) ∧
    (∀ c, s.fault = some c → runEnded s = true ∧ step s = .fault (.halted c)) ∧
    (runEnded s = true → s.fault = none →
      ∃ t, step s = .next t ∧ t.fault = none ∧ runEnded t = true ∧ observe t = observe s)
end

