-- ==== Sys2Proof/Laws/Encoding.lean ====
section
/-! SUPPORT. Laws/Encoding.lean: the bits of the words the encoder writes, and the fields read back from them. -/

namespace Sys2Proof

theorem fits_of_bits {n : Nat} {w p m : BitVec n}
    (h : ∀ i < n, (w.getLsbD i && m.getLsbD i) = p.getLsbD i) : fits w p m = true := by
  simp only [fits, beq_iff_eq]
  apply BitVec.eq_of_getLsbD_eq
  intro i hi
  simpa using h i hi

/-! ### The bits of each kind of word -/

theorem requestWord_bit (op : BitVec 4) (h : Handle) (a b : Byte) (i : Nat) :
    (requestWord op h a b).getLsbD i =
      if i < 4 then op.getLsbD i else if i < 8 then h.getLsbD (i - 4)
      else if i < 16 then a.getLsbD (i - 8) else b.getLsbD (i - 16) := by
  have h1 : (requestWord op h a b).getLsbD i
      = ((((0#8 ++ b) ++ a) ++ h) ++ op : BitVec (8 + 8 + 8 + 4 + 4)).getLsbD i := rfl
  rw [h1]
  simp only [BitVec.getLsbD_append, BitVec.getLsbD_zero]
  grind

theorem driveWord_bit (ln : Line) (lvl : Level) (i : Nat) :
    (driveWord ln lvl).getLsbD i =
      if i < 1 then (levelBit lvl).getLsbD i else if i < 8 then false else (lineCode ln).getLsbD (i - 8) := by
  have h1 : (driveWord ln lvl).getLsbD i
      = (((0x0#4 ++ lineCode ln) ++ 0#7) ++ levelBit lvl : BitVec (4 + 4 + 7 + 1)).getLsbD i := rfl
  rw [h1]
  simp only [BitVec.getLsbD_append, BitVec.getLsbD_zero]
  grind

theorem append_bit {m n : Nat} (x : BitVec m) (y : BitVec n) (i : Nat) :
    (x ++ y : BitVec (m + n)).getLsbD i = if i < n then y.getLsbD i else x.getLsbD (i - n) := by
  rw [BitVec.getLsbD_append]

/-! ### The fields of a request word -/

@[simp] theorem opField_requestWord (op : BitVec 4) (h : Handle) (a b : Byte) :
    opField (requestWord op h a b) = op := by
  apply BitVec.eq_of_getLsbD_eq
  intro i hi
  simp only [opField, BitVec.getLsbD_extractLsb', requestWord_bit]
  grind

@[simp] theorem handleField_requestWord (op : BitVec 4) (h : Handle) (a b : Byte) :
    handleField (requestWord op h a b) = h := by
  apply BitVec.eq_of_getLsbD_eq
  intro i hi
  simp only [handleField, BitVec.getLsbD_extractLsb', requestWord_bit]
  grind

@[simp] theorem aField_requestWord (op : BitVec 4) (h : Handle) (a b : Byte) :
    aField (requestWord op h a b) = a := by
  apply BitVec.eq_of_getLsbD_eq
  intro i hi
  simp only [aField, BitVec.getLsbD_extractLsb', requestWord_bit]
  grind

@[simp] theorem bField_requestWord (op : BitVec 4) (h : Handle) (a b : Byte) :
    bField (requestWord op h a b) = b := by
  apply BitVec.eq_of_getLsbD_eq
  intro i hi
  simp only [bField, BitVec.getLsbD_extractLsb', requestWord_bit]
  grind

/-! ### Every word the encoder writes fits its row of the opcode table -/

theorem fits_init : fits (requestWord 0x0#4 0#4 0#8 0#8) 0x00000000#32 0xFFFFFFFF#32 = true := by decide

theorem fits_handle (op : BitVec 4) (h : Handle) :
    fits (requestWord op h 0#8 0#8) (op.setWidth 32) 0xFFFFFF0F#32 = true := by
  apply fits_of_bits
  intro i hi
  rw [requestWord_bit]
  interval_cases i <;> simp

theorem fits_handle_byte (op : BitVec 4) (h : Handle) (a : Byte) :
    fits (requestWord op h a 0#8) (op.setWidth 32) 0xFFFF000F#32 = true := by
  apply fits_of_bits
  intro i hi
  rw [requestWord_bit]
  interval_cases i <;> simp

theorem fits_handle_bytes (op : BitVec 4) (h : Handle) (a b : Byte) :
    fits (requestWord op h a b) (op.setWidth 32) 0xFF00000F#32 = true := by
  apply fits_of_bits
  intro i hi
  rw [requestWord_bit]
  interval_cases i <;> simp

theorem fits_drive (ln : Line) (lvl : Level) : fits (driveWord ln lvl) 0x0000#16 0xF0FE#16 = true := by
  cases ln <;> cases lvl <;> decide

theorem fits_delay (n : BitVec 12) : fits (delayWord n) 0x1000#16 0xF000#16 = true := by
  apply fits_of_bits
  intro i hi
  have hb : (delayWord n).getLsbD i = _ := append_bit 0x1#4 n i
  rw [hb]
  interval_cases i <;> simp

theorem fits_writeNibble (v : Nibble) : fits (0x300#12 ++ v : UopWord) 0x3000#16 0xFFF0#16 = true := by
  apply fits_of_bits
  intro i hi
  have hb : (0x300#12 ++ v : UopWord).getLsbD i = _ := append_bit 0x300#12 v i
  rw [hb]
  interval_cases i <;> simp

theorem fits_sendCommand (b : Byte) : fits (0x40#8 ++ b : UopWord) 0x4000#16 0xFF00#16 = true := by
  apply fits_of_bits
  intro i hi
  have hb : (0x40#8 ++ b : UopWord).getLsbD i = _ := append_bit 0x40#8 b i
  rw [hb]
  interval_cases i <;> simp

theorem fits_sendData (b : Byte) : fits (0x50#8 ++ b : UopWord) 0x5000#16 0xFF00#16 = true := by
  apply fits_of_bits
  intro i hi
  have hb : (0x50#8 ++ b : UopWord).getLsbD i = _ := append_bit 0x50#8 b i
  rw [hb]
  interval_cases i <;> simp

theorem fits_curSet (row : BitVec 4) (col : Byte) : fits (curSetWord row col) 0x6000#16 0xF000#16 = true := by
  apply fits_of_bits
  intro i hi
  have hb : (curSetWord row col).getLsbD i = _ := append_bit (0x6#4 ++ row) col i
  rw [hb, append_bit]
  interval_cases i <;> simp

theorem fits_raise (c : FaultCode) : fits (raiseWord c) 0x7000#16 0xFFF8#16 = true := by
  cases c <;> decide

theorem fits_setDdramAddr (addr : BitVec 7) : fits (0b001#3 ++ addr : BusWord) 0x080#10 0x380#10 = true := by
  apply fits_of_bits
  intro i hi
  have hb : (0b001#3 ++ addr : BusWord).getLsbD i = _ := append_bit 0b001#3 addr i
  rw [hb]
  interval_cases i <;> simp

theorem fits_dataWrite (b : Byte) : fits (0b10#2 ++ b : BusWord) 0x200#10 0x300#10 = true := by
  apply fits_of_bits
  intro i hi
  have hb : (0b10#2 ++ b : BusWord).getLsbD i = _ := append_bit 0b10#2 b i
  rw [hb]
  interval_cases i <;> simp

end Sys2Proof
end

