-- ==== Sys2Proof/Laws/Levels.lean ====
section
/-! SUPPORT. Laws/Levels.lean: the level map: a drive is read back, other descriptors keep their level, the canonical form is kept. -/

namespace Sys2Proof.Machine

theorem pin_eq_of_id {p q : Pin} (h : p.id = q.id) : p = q := by
  cases p; cases q; cases h; rfl

@[simp] theorem levelOf_nil (p : Pin) : levelOf [] p = .X := rfl

theorem levelOf_cons (q : Pin) (v : Level) (l : List (Pin × Level)) (p : Pin) :
    levelOf ((q, v) :: l) p = if q = p then seenOf v else levelOf l p := by
  simp only [levelOf]
  split
  · cases v <;> rfl
  · rfl

/-- A drive is read back. -/
@[simp] theorem levelOf_setLevel_self (p : Pin) (v : Level) (l : List (Pin × Level)) :
    levelOf (setLevel p v l) p = seenOf v := by
  induction l with
  | nil => simp [setLevel, levelOf_cons]
  | cons a l ih =>
    obtain ⟨q, u⟩ := a
    simp only [setLevel]
    split
    · simp [levelOf_cons]
    · split
      · simp [levelOf_cons]
      · rename_i hne
        have : q ≠ p := fun h => hne (by rw [h])
        simp [levelOf_cons, this, ih]

/-- A drive leaves every other descriptor's level alone. -/
theorem levelOf_setLevel_other {p q : Pin} (h : q ≠ p) (v : Level) (l : List (Pin × Level)) :
    levelOf (setLevel p v l) q = levelOf l q := by
  induction l with
  | nil => simp [setLevel, levelOf_cons, Ne.symm h]
  | cons a l ih =>
    obtain ⟨r, u⟩ := a
    simp only [setLevel]
    split
    · simp [levelOf_cons, Ne.symm h]
    · split
      · rename_i he
        have : r ≠ q := fun hr => h (by rw [← hr]; exact (pin_eq_of_id he).symm)
        simp [levelOf_cons, Ne.symm h, this]
      · simp [levelOf_cons, ih]

theorem levelOf_setLevel (p q : Pin) (v : Level) (l : List (Pin × Level)) :
    levelOf (setLevel p v l) q = if q = p then seenOf v else levelOf l q := by
  split
  · subst q; simp
  · exact levelOf_setLevel_other (by assumption) v l

theorem levelsWf_cons_cons (a b : Pin × Level) (l : List (Pin × Level)) :
    levelsWf (a :: b :: l) = true ↔ a.1.id < b.1.id ∧ levelsWf (b :: l) = true := by
  simp [levelsWf]

theorem levelsWf_tail {a : Pin × Level} {l : List (Pin × Level)} (h : levelsWf (a :: l) = true) :
    levelsWf l = true := by
  cases l with
  | nil => rfl
  | cons b l => exact ((levelsWf_cons_cons a b l).1 h).2

/-- Writing a level keeps the canonical form, and keeps the first number above any bound below it. -/
theorem setLevel_wf_aux (p : Pin) (v : Level) (l : List (Pin × Level)) (h : levelsWf l = true) :
    levelsWf (setLevel p v l) = true ∧
      ∀ a : Pin × Level, a.1.id < p.id → levelsWf (a :: l) = true → levelsWf (a :: setLevel p v l) = true := by
  induction l with
  | nil =>
    refine ⟨rfl, fun a ha _ => ?_⟩
    simp [setLevel, levelsWf, ha]
  | cons b l ih =>
    obtain ⟨q, u⟩ := b
    obtain ⟨ih1, ih2⟩ := ih (levelsWf_tail h)
    simp only [setLevel]
    split
    · rename_i hlt
      refine ⟨?_, fun a ha _ => ?_⟩
      · rw [levelsWf_cons_cons]; exact ⟨hlt, h⟩
      · rw [levelsWf_cons_cons, levelsWf_cons_cons]; exact ⟨ha, hlt, h⟩
    · split
      · rename_i he
        have key : levelsWf ((p, v) :: l) = true := by
          cases l with
          | nil => rfl
          | cons c l =>
            rw [levelsWf_cons_cons] at h ⊢
            exact ⟨by have := h.1; simp only at this ⊢; omega, h.2⟩
        refine ⟨key, fun a ha _ => ?_⟩
        rw [levelsWf_cons_cons]; exact ⟨ha, key⟩
      · rename_i h1 h2
        have hqp : q.id < p.id := by omega
        have hw := ih2 (q, u) hqp h
        refine ⟨hw, fun a _ hal => ?_⟩
        rw [levelsWf_cons_cons] at hal ⊢
        exact ⟨hal.1, hw⟩

theorem setLevel_wf (p : Pin) (v : Level) {l : List (Pin × Level)} (h : levelsWf l = true) :
    levelsWf (setLevel p v l) = true := (setLevel_wf_aux p v l h).1

theorem levelsAfter_wf (e : Event) {l : List (Pin × Level)} (h : levelsWf l = true) :
    levelsWf (levelsAfter l e) = true := by
  cases e with
  | drive p v => exact setLevel_wf p v h
  | delay n => exact h

theorem replayFrom_wf (es : List Event) {l : List (Pin × Level)} (h : levelsWf l = true) :
    levelsWf (replayFrom l es) = true := by
  induction es generalizing l with
  | nil => exact h
  | cons e es ih => exact ih (levelsAfter_wf e h)

@[simp] theorem replayFrom_append (l : List (Pin × Level)) (es fs : List Event) :
    replayFrom l (es ++ fs) = replayFrom (replayFrom l es) fs := by
  induction es generalizing l with
  | nil => rfl
  | cons e es ih => exact ih _

theorem edges_append (p : Pins) (l : List (Pin × Level)) (es fs : List Event) :
    edges p l (es ++ fs) = edges p l es ++ edges p (replayFrom l es) fs := by
  induction es generalizing l with
  | nil => rfl
  | cons e es ih => simp [edges, replayFrom, ih]

end Sys2Proof.Machine
end

