-- ==== Sys2Proof/Laws/State.lean ====
section
/-! SUPPORT. Laws/State.lean: one lemma per field per update of the state, so that no proof unfolds an update. -/

namespace Sys2Proof.Machine

/-! ### raiseFault -/

@[simp] theorem raiseFault_fault (c : FaultCode) (s : State) : (raiseFault c s).fault = some c := rfl
@[simp] theorem raiseFault_busy (c : FaultCode) (s : State) : (raiseFault c s).busy = s.busy := rfl
@[simp] theorem raiseFault_active (c : FaultCode) (s : State) : (raiseFault c s).active = s.active := rfl
@[simp] theorem raiseFault_pending (c : FaultCode) (s : State) : (raiseFault c s).pending = s.pending := rfl
@[simp] theorem raiseFault_insts (c : FaultCode) (s : State) : (raiseFault c s).insts = s.insts := rfl
@[simp] theorem raiseFault_level (c : FaultCode) (s : State) : (raiseFault c s).level = s.level := rfl
@[simp] theorem raiseFault_trace (c : FaultCode) (s : State) : (raiseFault c s).trace = s.trace := rfl
@[simp] theorem raiseFault_returns (c : FaultCode) (s : State) : (raiseFault c s).returns = s.returns := rfl
@[simp] theorem raiseFault_host (c : FaultCode) (s : State) : (raiseFault c s).host = s.host := rfl
@[simp] theorem raiseFault_drawCount (c : FaultCode) (s : State) : (raiseFault c s).drawCount = s.drawCount := rfl
@[simp] theorem raiseFault_busIn (c : FaultCode) (s : State) : (raiseFault c s).busIn = s.busIn := rfl

/-! ### drivePin -/

@[simp] theorem drivePin_fault (p : Pin) (v : Level) (s : State) : (drivePin p v s).fault = s.fault := rfl
@[simp] theorem drivePin_busy (p : Pin) (v : Level) (s : State) : (drivePin p v s).busy = s.busy := rfl
@[simp] theorem drivePin_active (p : Pin) (v : Level) (s : State) : (drivePin p v s).active = s.active := rfl
@[simp] theorem drivePin_pending (p : Pin) (v : Level) (s : State) : (drivePin p v s).pending = s.pending := rfl
@[simp] theorem drivePin_insts (p : Pin) (v : Level) (s : State) : (drivePin p v s).insts = s.insts := rfl
@[simp] theorem drivePin_level (p : Pin) (v : Level) (s : State) : (drivePin p v s).level = setLevel p v s.level := rfl
@[simp] theorem drivePin_trace (p : Pin) (v : Level) (s : State) : (drivePin p v s).trace = s.trace ++ [.drive p v] := rfl
@[simp] theorem drivePin_returns (p : Pin) (v : Level) (s : State) : (drivePin p v s).returns = s.returns := rfl
@[simp] theorem drivePin_host (p : Pin) (v : Level) (s : State) : (drivePin p v s).host = s.host := rfl
@[simp] theorem drivePin_drawCount (p : Pin) (v : Level) (s : State) : (drivePin p v s).drawCount = s.drawCount := rfl
@[simp] theorem drivePin_busIn (p : Pin) (v : Level) (s : State) : (drivePin p v s).busIn = s.busIn := rfl

/-! ### setSlot -/

@[simp] theorem setSlot_fault (h : Handle) (slot : Slot) (s : State) : (setSlot h slot s).fault = s.fault := rfl
@[simp] theorem setSlot_busy (h : Handle) (slot : Slot) (s : State) : (setSlot h slot s).busy = s.busy := rfl
@[simp] theorem setSlot_active (h : Handle) (slot : Slot) (s : State) : (setSlot h slot s).active = s.active := rfl
@[simp] theorem setSlot_pending (h : Handle) (slot : Slot) (s : State) : (setSlot h slot s).pending = s.pending := rfl
@[simp] theorem setSlot_insts (h : Handle) (slot : Slot) (s : State) : (setSlot h slot s).insts = s.insts.setIfInBounds h.toNat slot := rfl
@[simp] theorem setSlot_level (h : Handle) (slot : Slot) (s : State) : (setSlot h slot s).level = s.level := rfl
@[simp] theorem setSlot_trace (h : Handle) (slot : Slot) (s : State) : (setSlot h slot s).trace = s.trace := rfl
@[simp] theorem setSlot_returns (h : Handle) (slot : Slot) (s : State) : (setSlot h slot s).returns = s.returns := rfl
@[simp] theorem setSlot_host (h : Handle) (slot : Slot) (s : State) : (setSlot h slot s).host = s.host := rfl
@[simp] theorem setSlot_drawCount (h : Handle) (slot : Slot) (s : State) : (setSlot h slot s).drawCount = s.drawCount := rfl
@[simp] theorem setSlot_busIn (h : Handle) (slot : Slot) (s : State) : (setSlot h slot s).busIn = s.busIn := rfl

/-! ### handBack -/

@[simp] theorem handBack_fault (v : Return) (s : State) : (handBack v s).fault = s.fault := rfl
@[simp] theorem handBack_busy (v : Return) (s : State) : (handBack v s).busy = s.busy := rfl
@[simp] theorem handBack_active (v : Return) (s : State) : (handBack v s).active = s.active := rfl
@[simp] theorem handBack_pending (v : Return) (s : State) : (handBack v s).pending = s.pending := rfl
@[simp] theorem handBack_insts (v : Return) (s : State) : (handBack v s).insts = s.insts := rfl
@[simp] theorem handBack_level (v : Return) (s : State) : (handBack v s).level = s.level := rfl
@[simp] theorem handBack_trace (v : Return) (s : State) : (handBack v s).trace = s.trace := rfl
@[simp] theorem handBack_returns (v : Return) (s : State) : (handBack v s).returns = s.returns ++ [v] := rfl
@[simp] theorem handBack_host (v : Return) (s : State) : (handBack v s).host = s.host := rfl
@[simp] theorem handBack_drawCount (v : Return) (s : State) : (handBack v s).drawCount = s.drawCount := rfl
@[simp] theorem handBack_busIn (v : Return) (s : State) : (handBack v s).busIn = s.busIn := rfl

/-! ### completeRequest -/

@[simp] theorem completeRequest_fault (s : State) : (completeRequest s).fault = s.fault := rfl
@[simp] theorem completeRequest_busy (s : State) : (completeRequest s).busy = false := rfl
@[simp] theorem completeRequest_active (s : State) : (completeRequest s).active = s.active := rfl
@[simp] theorem completeRequest_pending (s : State) : (completeRequest s).pending = s.pending := rfl
@[simp] theorem completeRequest_insts (s : State) : (completeRequest s).insts = s.insts := rfl
@[simp] theorem completeRequest_level (s : State) : (completeRequest s).level = s.level := rfl
@[simp] theorem completeRequest_trace (s : State) : (completeRequest s).trace = s.trace := rfl
@[simp] theorem completeRequest_returns (s : State) : (completeRequest s).returns = s.returns ++ [.completed] := rfl
@[simp] theorem completeRequest_host (s : State) : (completeRequest s).host = s.host := rfl
@[simp] theorem completeRequest_drawCount (s : State) : (completeRequest s).drawCount = s.drawCount := rfl
@[simp] theorem completeRequest_busIn (s : State) : (completeRequest s).busIn = s.busIn := rfl

/-! ### afterLeaves -/

@[simp] theorem afterLeaves_fault (slot : Slot) (us : List Leaf) (s : State) : (afterLeaves slot us s).fault = s.fault := rfl
@[simp] theorem afterLeaves_busy (slot : Slot) (us : List Leaf) (s : State) : (afterLeaves slot us s).busy = s.busy := rfl
@[simp] theorem afterLeaves_active (slot : Slot) (us : List Leaf) (s : State) : (afterLeaves slot us s).active = s.active := rfl
@[simp] theorem afterLeaves_pending (slot : Slot) (us : List Leaf) (s : State) : (afterLeaves slot us s).pending = s.pending := rfl
@[simp] theorem afterLeaves_returns (slot : Slot) (us : List Leaf) (s : State) : (afterLeaves slot us s).returns = s.returns := rfl
@[simp] theorem afterLeaves_host (slot : Slot) (us : List Leaf) (s : State) : (afterLeaves slot us s).host = s.host := rfl
@[simp] theorem afterLeaves_drawCount (slot : Slot) (us : List Leaf) (s : State) : (afterLeaves slot us s).drawCount = s.drawCount := rfl
@[simp] theorem afterLeaves_busIn (slot : Slot) (us : List Leaf) (s : State) : (afterLeaves slot us s).busIn = s.busIn := rfl

/-! ### finishInit -/

@[simp] theorem finishInit_fault (p : Pins) (h : Fin 15) (ok : Bool) (s : State) : (finishInit p h ok s).fault = s.fault := rfl
@[simp] theorem finishInit_busy (p : Pins) (h : Fin 15) (ok : Bool) (s : State) : (finishInit p h ok s).busy = s.busy := rfl
@[simp] theorem finishInit_active (p : Pins) (h : Fin 15) (ok : Bool) (s : State) : (finishInit p h ok s).active = s.active := rfl
@[simp] theorem finishInit_pending (p : Pins) (h : Fin 15) (ok : Bool) (s : State) : (finishInit p h ok s).pending = s.pending := rfl
@[simp] theorem finishInit_level (p : Pins) (h : Fin 15) (ok : Bool) (s : State) : (finishInit p h ok s).level = s.level := rfl
@[simp] theorem finishInit_trace (p : Pins) (h : Fin 15) (ok : Bool) (s : State) : (finishInit p h ok s).trace = s.trace := rfl
@[simp] theorem finishInit_host (p : Pins) (h : Fin 15) (ok : Bool) (s : State) : (finishInit p h ok s).host = s.host := rfl
@[simp] theorem finishInit_drawCount (p : Pins) (h : Fin 15) (ok : Bool) (s : State) : (finishInit p h ok s).drawCount = s.drawCount := rfl
@[simp] theorem finishInit_busIn (p : Pins) (h : Fin 15) (ok : Bool) (s : State) : (finishInit p h ok s).busIn = s.busIn := rfl

@[simp] theorem afterLeaves_level (slot : Slot) (us : List Leaf) (s : State) :
    (afterLeaves slot us s).level = replayFrom s.level (eventsOf slot.pins us) := rfl
@[simp] theorem afterLeaves_trace (slot : Slot) (us : List Leaf) (s : State) :
    (afterLeaves slot us s).trace = s.trace ++ eventsOf slot.pins us := rfl
@[simp] theorem finishInit_insts (p : Pins) (h : Fin 15) (ok : Bool) (s : State) :
    (finishInit p h ok s).insts = if ok then s.insts.set h.val (freshSlot p) else s.insts := rfl
@[simp] theorem finishInit_returns (p : Pins) (h : Fin 15) (ok : Bool) (s : State) :
    (finishInit p h ok s).returns
      = s.returns ++ [.handle (if ok then BitVec.ofNat 4 h.val else noneHandle)] := rfl

end Sys2Proof.Machine
end

