-- ==== Sys2Proof/Laws/Ops.lean ====
section
/-! SUPPORT. Laws/Ops.lean: for each shared operation, once, everything it can do. -/

namespace Sys2Proof.Machine

/-! ### Halting -/

@[simp] theorem unlessHalted_live {s : State} (h : s.fault = none) (k : Host.Outcome State Fault Refusal) :
    unlessHalted s k = k := by simp [unlessHalted, h]

@[simp] theorem unlessHalted_halted {s : State} {c : FaultCode} (h : s.fault = some c)
    (k : Host.Outcome State Fault Refusal) : unlessHalted s k = .fault (.halted c) := by simp [unlessHalted, h]

/-- A guarded meaning answers a next state only of a live block. -/
theorem unlessHalted_next {s t : State} {k : Host.Outcome State Fault Refusal} (h : unlessHalted s k = .next t) :
    s.fault = none ∧ k = .next t := by
  cases hf : s.fault with
  | none => exact ⟨rfl, by simpa [hf] using h⟩
  | some c => simp [hf] at h

/-! ### Instances -/

/-- What it means that a handle names an instance (R26). -/
theorem instOf_eq_some {s : State} {h : Handle} {slot : Slot} :
    instOf s h = some slot ↔
      s.insts[h.toNat]? = some slot ∧ slot.present = true ∧ h.toNat < Config.instanceCount := by
  unfold instOf
  split
  · rename_i sl he
    by_cases hp : sl.present = true ∧ h.toNat < Config.instanceCount
    · simp [hp, he]
      intro heq; subst heq; exact hp.1
    · have : (sl.present && decide (h.toNat < Config.instanceCount)) = false := by
        simpa [not_and, Bool.and_eq_false_iff] using hp
      simp only [this, he]
      constructor
      · intro hc; cases hc
      · rintro ⟨heq, h1, h2⟩
        cases heq
        exact absurd ⟨h1, h2⟩ hp
  · rename_i he
    simp [he]

/-- Only `insts` decides what a handle names. -/
theorem instOf_congr {s t : State} (h : s.insts = t.insts) (a : Handle) : instOf s a = instOf t a := by
  simp [instOf, h]

@[simp] theorem instOf_drivePin (p : Pin) (v : Level) (s : State) (a : Handle) :
    instOf (drivePin p v s) a = instOf s a := rfl

/-- Writing the slot a handle names: it then names the written slot. -/
theorem instOf_setSlot {s : State} {h : Handle} {slot slot' : Slot} (hs : instOf s h = some slot)
    (hp : slot'.present = true) : instOf (setSlot h slot' s) h = some slot' := by
  rw [instOf_eq_some] at hs ⊢
  obtain ⟨h1, _, h3⟩ := hs
  refine ⟨?_, hp, h3⟩
  have hlt : h.toNat < 15 := by
    by_contra hge
    rw [Vector.getElem?_eq_none (by omega)] at h1
    cases h1
  simp [hlt]

/-! ### Leaves -/

theorem driveLine_of_instOf {s : State} {slot : Slot} (h : instOf s s.active = some slot) (ln : Line) (lvl : Level) :
    driveLine ln lvl s = .next (drivePin (pinOf slot.pins ln) lvl s) := by simp [driveLine, h]

theorem requestDelay_of_ne {n : BitVec 12} (h : n ≠ 0#12) (s : State) :
    requestDelay n s = .next { s with trace := s.trace ++ [.delay n.toNat] } := by simp [requestDelay, h]

theorem writeCursor_of_instOf {s : State} {slot : Slot} (h : instOf s s.active = some slot) (row : BitVec 4) (col : Byte) :
    writeCursor row col s = .next (setSlot s.active { slot with row := row.setWidth 8, col := col } s) := by
  simp [writeCursor, h]

/-- If DRIVE answers a next state, the active instance is present and one line was driven. -/
theorem driveLine_next {s t : State} {ln : Line} {lvl : Level} (h : driveLine ln lvl s = .next t) :
    ∃ slot, instOf s s.active = some slot ∧ t = drivePin (pinOf slot.pins ln) lvl s := by
  cases hi : instOf s s.active with
  | none => simp [driveLine, hi] at h
  | some slot => exact ⟨slot, rfl, by simpa [driveLine, hi] using h.symm⟩

/-- If DELAY answers a next state, one event was appended. -/
theorem requestDelay_next {s t : State} {n : BitVec 12} (h : requestDelay n s = .next t) :
    n ≠ 0#12 ∧ t = { s with trace := s.trace ++ [.delay n.toNat] } := by
  by_cases hn : n = 0#12
  · simp [requestDelay, hn] at h
  · exact ⟨hn, by simpa [requestDelay, hn] using h.symm⟩

/-- If CURSET answers a next state, the active instance is present and its cursor was written. -/
theorem writeCursor_next {s t : State} {row : BitVec 4} {col : Byte} (h : writeCursor row col s = .next t) :
    ∃ slot, instOf s s.active = some slot ∧
      t = setSlot s.active { slot with row := row.setWidth 8, col := col } s := by
  cases hi : instOf s s.active with
  | none => simp [writeCursor, hi] at h
  | some slot => exact ⟨slot, rfl, by simpa [writeCursor, hi] using h.symm⟩

theorem performLeaves_append (us vs : List Leaf) (s : State) :
    performLeaves (us ++ vs) s =
      match performLeaves us s with
      | .next t => performLeaves vs t
      | .fault r => .fault r
      | .refused r => .refused r := by
  induction us generalizing s with
  | nil => rfl
  | cons u us ih =>
    simp only [List.cons_append, performLeaves]
    cases performLeaf u s with
    | next t => exact ih t
    | fault r => rfl
    | refused r => rfl

@[simp] theorem eventsOf_append (p : Pins) (us vs : List Leaf) :
    eventsOf p (us ++ vs) = eventsOf p us ++ eventsOf p vs := by
  induction us with
  | nil => rfl
  | cons u us ih => simp [eventsOf, ih]

theorem cursorAfter_append (r c : Byte) (us vs : List Leaf) :
    cursorAfter r c (us ++ vs) = cursorAfter (cursorAfter r c us).1 (cursorAfter r c us).2 vs := by
  induction us generalizing r c with
  | nil => rfl
  | cons u us ih => cases u <;> exact ih _ _

/-- No leaf at all leaves the state alone. -/
theorem afterLeaves_nil {s : State} {slot : Slot} (h : instOf s s.active = some slot) : afterLeaves slot [] s = s := by
  have h1 := (instOf_eq_some.1 h).1
  have : s.insts.setIfInBounds s.active.toNat slot = s.insts := by
    apply Vector.ext
    intro i hi
    rw [Vector.getElem_setIfInBounds]
    split
    · rename_i he
      subst he
      rw [Vector.getElem?_eq_getElem hi] at h1
      exact (Option.some.inj h1).symm
    · rfl
  cases s
  simp_all [afterLeaves, eventsOf, replayFrom, cursorAfter]

/-- The spec of a sequence of leaves that go on: it completes, and this is all it does. -/
theorem performLeaves_goesOn (us : List Leaf) (hu : ∀ u ∈ us, leafGoesOn u = true) {s : State} {slot : Slot}
    (h : instOf s s.active = some slot) : performLeaves us s = .next (afterLeaves slot us s) := by
  induction us generalizing s slot with
  | nil => rw [afterLeaves_nil h]; rfl
  | cons u us ih =>
    have hus : ∀ v ∈ us, leafGoesOn v = true := fun v hv => hu v (List.mem_cons_of_mem _ hv)
    have h0 := hu u List.mem_cons_self
    cases u with
    | drive ln lvl =>
      simp only [performLeaves, performLeaf, driveLine_of_instOf h]
      rw [ih hus (slot := slot) (by simpa using h)]
      simp [afterLeaves, drivePin, eventsOf, leafEvents, replayFrom, levelsAfter, cursorAfter]
    | delay n =>
      have hn : n ≠ 0#12 := by simpa [leafGoesOn] using h0
      simp only [performLeaves, performLeaf, requestDelay_of_ne hn]
      rw [ih hus (slot := slot) (by rw [← h]; rfl)]
      simp [afterLeaves, eventsOf, leafEvents, replayFrom, levelsAfter, cursorAfter]
    | curSet row col =>
      simp only [performLeaves, performLeaf, writeCursor_of_instOf h]
      rw [ih hus (slot := { slot with row := row.setWidth 8, col := col })
        (instOf_setSlot h ((instOf_eq_some.1 h).2.1))]
      simp [afterLeaves, setSlot, eventsOf, leafEvents, cursorAfter]
    | raise c => simp [leafGoesOn] at h0

/-! ### Acceptance -/

/-- Everything acceptance can do with a live block (R180, R188). -/
theorem acceptRequest_cases {h : Handle} {expand : Slot → List Leaf} {s t : State}
    (ha : acceptRequest h expand s = .next t) :
    s.fault = none ∧
      ((s.busy = true ∧ t = raiseFault .reentry s) ∨
       (s.busy = false ∧ instOf s h = none ∧ t = raiseFault .absentHandle s) ∨
       (s.busy = false ∧ ∃ slot, instOf s h = some slot ∧
          t = { s with busy := true, active := h, pending := (expand slot).map leafWord })) := by
  obtain ⟨hf, hk⟩ := unlessHalted_next ha
  refine ⟨hf, ?_⟩
  cases hb : s.busy with
  | true => exact .inl ⟨rfl, by simpa [hb] using hk.symm⟩
  | false =>
    cases hi : instOf s h with
    | none => exact .inr (.inl ⟨rfl, rfl, by simpa [hb, hi] using hk.symm⟩)
    | some slot => exact .inr (.inr ⟨rfl, slot, rfl, by simpa [hb, hi] using hk.symm⟩)

theorem acceptRequest_absent {h : Handle} (expand : Slot → List Leaf) {s : State} (hf : s.fault = none)
    (hb : s.busy = false) (hi : instOf s h = none) :
    acceptRequest h expand s = .next (raiseFault .absentHandle s) := by simp [acceptRequest, hf, hb, hi]

theorem acceptRequest_busy (h : Handle) (expand : Slot → List Leaf) {s : State} (hf : s.fault = none)
    (hb : s.busy = true) : acceptRequest h expand s = .next (raiseFault .reentry s) := by
  simp [acceptRequest, hf, hb]

theorem acceptRequest_ready {h : Handle} (expand : Slot → List Leaf) {s : State} {slot : Slot} (hf : s.fault = none)
    (hb : s.busy = false) (hi : instOf s h = some slot) :
    acceptRequest h expand s
      = .next { s with busy := true, active := h, pending := (expand slot).map leafWord } := by
  simp [acceptRequest, hf, hb, hi]

end Sys2Proof.Machine
end

