-- ==== Sys2Proof/Laws/Expansions.lean ====
section
/-! SUPPORT. Laws/Expansions.lean: what each expansion does: the word of a leaf reads back, and the events, the cursor and the
going-on of each routine and body. -/

namespace Sys2Proof

/-! ### The fields of a micro-op word -/

@[simp] theorem uopField_delayWord (n : BitVec 12) : uopField (delayWord n) = 1#4 := by
  apply BitVec.eq_of_getLsbD_eq
  intro i hi
  have hb : (delayWord n).getLsbD (12 + i) = _ := append_bit 0x1#4 n (12 + i)
  simp only [Nat.not_lt.2 (Nat.le_add_right 12 i), if_false, Nat.add_sub_cancel_left] at hb
  simp [uopField, hb, hi]

@[simp] theorem delayField_delayWord (n : BitVec 12) : (delayWord n).extractLsb' 0 12 = n := by
  apply BitVec.eq_of_getLsbD_eq
  intro i hi
  have hb : (delayWord n).getLsbD i = _ := append_bit 0x1#4 n i
  simp only [hi, if_true] at hb
  simp [hb, hi]

/-- The high byte of a micro-op word holds its UOP. -/
theorem uopField_append (x b : Byte) : uopField (x ++ b : UopWord) = x.extractLsb' 4 4 := by
  apply BitVec.eq_of_getLsbD_eq
  intro i hi
  have hb : (x ++ b : UopWord).getLsbD (12 + i) = _ := append_bit x b (12 + i)
  rw [if_neg (by omega), show 12 + i - 8 = 4 + i by omega] at hb
  simp only [uopField, BitVec.getLsbD_extractLsb', hb]

theorem lowByte_append (x b : Byte) : (x ++ b : UopWord).extractLsb' 0 8 = b := by
  apply BitVec.eq_of_getLsbD_eq
  intro i hi
  have hb : (x ++ b : UopWord).getLsbD i = _ := append_bit x b i
  rw [if_pos hi] at hb
  simp [hb, hi]

theorem thirdNibble_append (x b : Byte) : (x ++ b : UopWord).extractLsb' 8 4 = x.extractLsb' 0 4 := by
  apply BitVec.eq_of_getLsbD_eq
  intro i hi
  have hb : (x ++ b : UopWord).getLsbD (8 + i) = _ := append_bit x b (8 + i)
  rw [if_neg (by omega), show 8 + i - 8 = 0 + i by omega] at hb
  simp only [BitVec.getLsbD_extractLsb', hb]

end Sys2Proof

namespace Sys2Proof.Machine

/-- The word of every leaf an expansion holds reads back as that leaf; DELAY 0 has no word. -/
theorem decodeUop_leafWord (u : Leaf) (hu : u ≠ .delay 0#12) : decodeUop (leafWord u) = .ok (leafInstr u) := by
  cases u with
  | drive ln lvl => cases ln <;> cases lvl <;> decide
  | delay n =>
    have hn : n ≠ 0#12 := fun h => hu (by rw [h])
    simp [leafWord, leafInstr, decodeUop, ifFits, fits_delay, hn]
  | curSet row col =>
    have hw : curSetWord row col = ((0x6#4 ++ row : Byte) ++ col : UopWord) := rfl
    have h1 : (0x6#4 ++ row : Byte).extractLsb' 4 4 = 6#4 := by clear hw hu; revert row; decide
    have h2 : (0x6#4 ++ row : Byte).extractLsb' 0 4 = row := by clear h1 hw hu; revert row; decide
    have hf := fits_curSet row col
    rw [hw] at hf
    simp [leafWord, leafInstr, hw, decodeUop, ifFits, uopField_append, lowByte_append, thirdNibble_append, h1, h2, hf]
  | raise c => cases c <;> decide

/-! ### Events -/

theorem eventsOf_pulse (p : Pins) : eventsOf p enablePulseLeaves = pulseEvents p := rfl

theorem eventsOf_nibble (p : Pins) (v : Nibble) : eventsOf p (writeNibbleLeaves v) = nibbleEvents p v := rfl

theorem eventsOf_sendByte (p : Pins) (rs : Level) (b : Byte) : eventsOf p (sendByteLeaves rs b) = byteEvents p rs b := rfl

/-- The common shape of the four bodies: a byte, its delay, and the cursor written. -/
theorem eventsOf_body (p : Pins) (rs : Level) (b r c : Byte) :
    eventsOf p (sendByteLeaves rs b ++ [.delay Config.tCmd, curSetLeaf r c]) = byteEvents p rs b ++ [.delay 1] := by
  rw [eventsOf_append, eventsOf_sendByte]; rfl

/-! ### Counts and requested time -/

@[simp] theorem requestedMs_append (es fs : List Event) : requestedMs (es ++ fs) = requestedMs es + requestedMs fs := by
  induction es with
  | nil => simp [requestedMs]
  | cons e es ih => cases e <;> simp [requestedMs, ih, Nat.add_assoc]

@[simp] theorem delayEvents_append (es fs : List Event) : delayEvents (es ++ fs) = delayEvents es + delayEvents fs := by
  induction es with
  | nil => simp [delayEvents]
  | cons e es ih => cases e <;> simp [delayEvents, ih, Nat.add_right_comm]

@[simp] theorem driveEvents_append (es fs : List Event) : driveEvents (es ++ fs) = driveEvents es + driveEvents fs := by
  induction es with
  | nil => simp [driveEvents]
  | cons e es ih => cases e <;> simp [driveEvents, ih, Nat.add_right_comm]

/-- Draws that fit a list of events add up to at least what it requests. -/
theorem requestedMs_le_sum {es : List Event} {ds : List Nat} (h : elapsedFits es ds = true) : requestedMs es ≤ ds.sum := by
  induction es generalizing ds with
  | nil => exact Nat.zero_le _
  | cons e es ih =>
    cases e with
    | drive p v => exact ih h
    | delay n =>
      cases ds with
      | nil => cases h
      | cons d ds =>
        simp only [elapsedFits, Bool.and_eq_true, decide_eq_true_eq] at h
        simpa [requestedMs] using Nat.add_le_add h.1 (ih h.2)

/-- A list of events with a delay admits every sum from what it requests up. -/
theorem exists_draws {es : List Event} {total : Nat} (hd : 0 < delayEvents es) (h : requestedMs es ≤ total) :
    ∃ ds : List Nat, elapsedFits es ds = true ∧ ds.sum = total := by
  induction es generalizing total with
  | nil => cases hd
  | cons e es ih =>
    cases e with
    | drive p v => exact ih hd h
    | delay n =>
      simp only [requestedMs] at h
      rcases Nat.eq_zero_or_pos (delayEvents es) with h0 | h0
      · refine ⟨[total], ?_, by simp⟩
        have key : ∀ fs : List Event, delayEvents fs = 0 → elapsedFits fs [] = true := by
          intro fs hf
          induction fs with
          | nil => rfl
          | cons f fs ihf =>
            cases f with
            | drive p v => exact ihf hf
            | delay m => cases hf
        simp [elapsedFits, key es h0]
        omega
      · obtain ⟨ds, hds, hs⟩ := ih h0 (total := total - n) (by omega)
        exact ⟨n :: ds, by simp [elapsedFits, hds], by simp [hs]; omega⟩

/-! ### Cursor and going on -/

/-- A byte writes no cursor. -/
theorem cursorAfter_sendByte (rs : Level) (b r c : Byte) : cursorAfter r c (sendByteLeaves rs b) = (r, c) := rfl

theorem cursorAfter_body (rs : Level) (b r c r0 c0 : Byte) :
    cursorAfter r0 c0 (sendByteLeaves rs b ++ [.delay Config.tCmd, curSetLeaf r c]) = ((r.setWidth 4).setWidth 8, c) := by
  rw [cursorAfter_append, cursorAfter_sendByte]; rfl

theorem leafGoesOn_sendByte (rs : Level) (b : Byte) : ∀ u ∈ sendByteLeaves rs b, leafGoesOn u = true := by
  intro u hu
  simp only [sendByteLeaves, writeNibbleLeaves, enablePulseLeaves, Config.tPulse, List.mem_append, List.mem_cons,
    List.not_mem_nil, or_false] at hu
  aesop

theorem leafGoesOn_body (rs : Level) (b r c : Byte) :
    ∀ u ∈ sendByteLeaves rs b ++ [.delay Config.tCmd, curSetLeaf r c], leafGoesOn u = true := by
  intro u hu
  rcases List.mem_append.1 hu with h | h
  · exact leafGoesOn_sendByte rs b u h
  · simp only [List.mem_cons, List.not_mem_nil, or_false] at h
    rcases h with rfl | rfl <;> rfl

end Sys2Proof.Machine
end

