-- ==== Sys2Proof/Laws/PerInstr.lean ====
section
/-! SUPPORT. Laws/PerInstr.lean: the family FitsTable, made per instruction: the code of each instruction is in the notation of its
row of spec/opcode_table.json and passes the row's test `(word & mask) = match`. -/

namespace Sys2Proof.Laws

/-- A row of the opcode table: its notation, match and mask. -/
inductive TableRow where
  | request32 (pattern mask : ReqWord)
  | uop16 (pattern mask : UopWord)
  | busCommand10 (pattern mask : BusWord)

/-- The row's test (R73, R81, R95). -/
def TableRow.accepts : TableRow → Code → Bool
  | .request32 p m, .request w _ => fits w p m
  | .uop16 p m, .uop w => fits w p m
  | .busCommand10 p m, .bus w => fits w p m
  | _, _ => false

/-- The row of each instruction, copied from the table. -/
def tableRow : Instr → TableRow
  | .init _ => .request32 0x00000000#32 0xFFFFFFFF#32
  | .beginInit _ => .request32 0x00000001#32 0xFFFFFF0F#32
  | .clearScreen _ => .request32 0x00000002#32 0xFFFFFF0F#32
  | .home _ => .request32 0x00000003#32 0xFFFFFF0F#32
  | .setCursor _ _ _ => .request32 0x00000004#32 0xFF00000F#32
  | .putChar _ _ => .request32 0x00000005#32 0xFFFF000F#32
  | .putStr _ _ => .request32 0x00000006#32 0xFFFFFF0F#32
  | .drive _ _ => .uop16 0x0000#16 0xF0FE#16
  | .delay _ => .uop16 0x1000#16 0xF000#16
  | .enablePulse => .uop16 0x2000#16 0xFFFF#16
  | .writeNibble _ => .uop16 0x3000#16 0xFFF0#16
  | .sendCommand _ => .uop16 0x4000#16 0xFF00#16
  | .sendData _ => .uop16 0x5000#16 0xFF00#16
  | .curSet _ _ => .uop16 0x6000#16 0xF000#16
  | .raise _ => .uop16 0x7000#16 0xFFF8#16
  | .cmdFunctionSet => .busCommand10 0x028#10 0x3FF#10
  | .cmdDisplayControl => .busCommand10 0x00F#10 0x3FF#10
  | .cmdEntryMode => .busCommand10 0x006#10 0x3FF#10
  | .cmdClear => .busCommand10 0x001#10 0x3FF#10
  | .cmdHome => .busCommand10 0x002#10 0x3FF#10
  | .cmdSetDdramAddr _ => .busCommand10 0x080#10 0x380#10
  | .dataWrite _ => .busCommand10 0x200#10 0x300#10

end Sys2Proof.Laws

namespace Sys2Proof.Laws.FitsTable

/-- The code of `i` fits the row of `i`. -/
def Statement (i : Instr) : Prop := (tableRow i).accepts (encode i) = true

theorem init (p : Pins) : Statement (.init p) := fits_init
theorem beginInit (h : Handle) : Statement (.beginInit h) := fits_handle 0x1#4 h
theorem clearScreen (h : Handle) : Statement (.clearScreen h) := fits_handle 0x2#4 h
theorem home (h : Handle) : Statement (.home h) := fits_handle 0x3#4 h
theorem setCursor (h : Handle) (row column : Byte) : Statement (.setCursor h row column) :=
  fits_handle_bytes 0x4#4 h row column
theorem putChar (h : Handle) (byte : Byte) : Statement (.putChar h byte) := fits_handle_byte 0x5#4 h byte
theorem putStr (h : Handle) (str : List Byte) : Statement (.putStr h str) := fits_handle 0x6#4 h
theorem drive (ln : Line) (lvl : Level) : Statement (.drive ln lvl) := fits_drive ln lvl
theorem delay (n : BitVec 12) : Statement (.delay n) := fits_delay n
theorem enablePulse : Statement .enablePulse := by unfold Statement; decide
theorem writeNibble (v : Nibble) : Statement (.writeNibble v) := fits_writeNibble v
theorem sendCommand (b : Byte) : Statement (.sendCommand b) := fits_sendCommand b
theorem sendData (b : Byte) : Statement (.sendData b) := fits_sendData b
theorem curSet (row : BitVec 4) (col : Byte) : Statement (.curSet row col) := fits_curSet row col
theorem raise (code : FaultCode) : Statement (.raise code) := fits_raise code
theorem cmdFunctionSet : Statement .cmdFunctionSet := by unfold Statement; decide
theorem cmdDisplayControl : Statement .cmdDisplayControl := by unfold Statement; decide
theorem cmdEntryMode : Statement .cmdEntryMode := by unfold Statement; decide
theorem cmdClear : Statement .cmdClear := by unfold Statement; decide
theorem cmdHome : Statement .cmdHome := by unfold Statement; decide
theorem cmdSetDdramAddr (addr : BitVec 7) : Statement (.cmdSetDdramAddr addr) := fits_setDdramAddr addr
theorem dataWrite (b : Byte) : Statement (.dataWrite b) := fits_dataWrite b

end Sys2Proof.Laws.FitsTable
end

