-- ==== Sys2Proof/Laws/Step.lean ====
section
/-! SUPPORT. Laws/Step.lean: everything an instruction and a step can do, said once: the inversion of exec and of step, and one
step of a run. -/

namespace Sys2Proof.Machine

/-! ### What an instruction expands into -/

/-- The leaves a request other than INIT puts in `pending`, from the slot at its acceptance; none for what is no such request. -/
def expansionOf : Instr → Slot → List Leaf
  | .beginInit _, _ => beginLeaves
  | .clearScreen _, _ => clearScreenLeaves
  | .home _, _ => homeLeaves
  | .setCursor _ row column, _ => setCursorLeaves Config.displayWidth row column
  | .putChar _ b, slot => putCharLeaves Config.displayWidth slot.row slot.col b
  | .putStr _ str, slot => putStrLeaves Config.displayWidth slot.row slot.col str
  | _, _ => []

/-- The leaves a micro-op or a bus byte performs at once; none for a request. -/
def performedBy : Instr → List Leaf
  | .drive ln lvl => [.drive ln lvl]
  | .delay n => [.delay n]
  | .enablePulse => enablePulseLeaves
  | .writeNibble v => writeNibbleLeaves v
  | .sendCommand b => sendCommandLeaves b
  | .sendData b => sendDataLeaves b
  | .curSet row col => [.curSet row col]
  | .raise c => [.raise c]
  | .cmdFunctionSet => sendByteLeaves .L Config.cmdFunctionSet
  | .cmdDisplayControl => sendByteLeaves .L Config.cmdDisplayControl
  | .cmdEntryMode => sendByteLeaves .L Config.cmdEntryMode
  | .cmdClear => sendByteLeaves .L Config.cmdClear
  | .cmdHome => sendByteLeaves .L Config.cmdHome
  | .cmdSetDdramAddr addr => sendByteLeaves .L (setDdramByte addr)
  | .dataWrite b => sendByteLeaves .H b
  | _ => []

/-- A row of the host port (R71). -/
def isRequest : Instr → Bool
  | .init _ => true
  | i => (requestHandle i).isSome

theorem performLeaves_single (u : Leaf) (s : State) : performLeaves [u] s = performLeaf u s := by
  simp only [performLeaves]
  cases performLeaf u s <;> rfl

/-- A request with a handle is its acceptance, and nothing else. -/
theorem exec_request {i : Instr} {h : Handle} (hh : requestHandle i = some h) (s : State) :
    exec i s = acceptRequest h (expansionOf i) s := by
  cases i <;> simp [requestHandle] at hh <;> subst hh <;> rfl

/-- What is no request performs its leaves, unless the block is halted. -/
theorem exec_performs {i : Instr} (hi : isRequest i = false) (s : State) :
    exec i s = unlessHalted s (performLeaves (performedBy i) s) := by
  cases i <;> simp [isRequest, requestHandle] at hi <;> try rfl
  all_goals simp only [performedBy, performLeaves_single]; rfl

theorem exec_init (p : Pins) (s : State) :
    exec (.init p) s = unlessHalted s (if s.busy then .next (raiseFault .reentry s) else .next (initBody p s)) := rfl

theorem isRequest_cases (i : Instr) :
    (∃ p, i = .init p) ∨ (∃ h, requestHandle i = some h) ∨ isRequest i = false := by
  cases i <;> simp [requestHandle, isRequest]

/-- A halted block runs no instruction (R185). -/
theorem exec_halted {s : State} {c : FaultCode} (h : s.fault = some c) (i : Instr) : exec i s = .fault (.halted c) := by
  rcases isRequest_cases i with ⟨p, rfl⟩ | ⟨a, ha⟩ | hr
  · rw [exec_init, unlessHalted_halted h]
  · rw [exec_request ha, acceptRequest, unlessHalted_halted h]
  · rw [exec_performs hr, unlessHalted_halted h]

/-- Everything an instruction can do when it answers a next state: a fault is recorded; INIT runs; a request is accepted; or
the leaves of a micro-op or bus byte are performed. -/
theorem exec_next {i : Instr} {s t : State} (h : exec i s = .next t) :
    s.fault = none ∧
      ((isRequest i = true ∧ ∃ c, t = raiseFault c s) ∨
       (s.busy = false ∧ ∃ p, i = .init p ∧ t = initBody p s) ∨
       (s.busy = false ∧ ∃ a slot, requestHandle i = some a ∧ instOf s a = some slot ∧
          t = { s with busy := true, active := a, pending := (expansionOf i slot).map leafWord }) ∨
       (isRequest i = false ∧ performLeaves (performedBy i) s = .next t)) := by
  rcases isRequest_cases i with ⟨p, rfl⟩ | ⟨a, ha⟩ | hr
  · rw [exec_init] at h
    obtain ⟨hf, hk⟩ := unlessHalted_next h
    refine ⟨hf, ?_⟩
    cases hb : s.busy with
    | true => exact .inl ⟨rfl, .reentry, by simpa [hb] using hk.symm⟩
    | false => exact .inr (.inl ⟨rfl, p, rfl, by simpa [hb] using hk.symm⟩)
  · rw [exec_request ha] at h
    have hr : isRequest i = true := by
      cases i <;> simp [requestHandle, isRequest] at ha ⊢
    obtain ⟨hf, ⟨_, rfl⟩ | ⟨_, _, rfl⟩ | ⟨hb, slot, hs, rfl⟩⟩ := acceptRequest_cases h
    · exact ⟨hf, .inl ⟨hr, .reentry, rfl⟩⟩
    · exact ⟨hf, .inl ⟨hr, .absentHandle, rfl⟩⟩
    · exact ⟨hf, .inr (.inr (.inl ⟨hb, a, slot, ha, hs, rfl⟩))⟩
  · rw [exec_performs hr] at h
    obtain ⟨hf, hk⟩ := unlessHalted_next h
    exact ⟨hf, .inr (.inr (.inr ⟨hr, hk⟩))⟩

/-! ### Leaves one by one -/

/-- What no leaf changes. -/
theorem performLeaf_keeps {u : Leaf} {s t : State} (h : performLeaf u s = .next t) :
    t.busy = s.busy ∧ t.active = s.active ∧ t.pending = s.pending ∧ t.returns = s.returns ∧ t.host = s.host ∧
      t.drawCount = s.drawCount ∧ t.busIn = s.busIn := by
  cases u with
  | drive ln lvl => obtain ⟨slot, _, rfl⟩ := driveLine_next h; simp
  | delay n => obtain ⟨_, rfl⟩ := requestDelay_next h; simp
  | curSet row col => obtain ⟨slot, _, rfl⟩ := writeCursor_next h; simp
  | raise c => simp only [performLeaf, Host.Outcome.next.injEq] at h; subst h; simp

/-- A relation that every leaf of a list keeps, the list keeps. -/
theorem performLeaves_induction {R : State → State → Prop} (hrefl : ∀ s, R s s)
    (htrans : ∀ s t u, R s t → R t u → R s u) (us : List Leaf)
    (hleaf : ∀ u ∈ us, ∀ s t, performLeaf u s = .next t → R s t) {s t : State}
    (h : performLeaves us s = .next t) : R s t := by
  induction us generalizing s with
  | nil => simp only [performLeaves, Host.Outcome.next.injEq] at h; subst h; exact hrefl s
  | cons u us ih =>
    simp only [performLeaves] at h
    cases hu : performLeaf u s with
    | next m =>
      rw [hu] at h
      exact htrans _ _ _ (hleaf u List.mem_cons_self s m hu) (ih (fun v hv => hleaf v (List.mem_cons_of_mem _ hv)) h)
    | fault r => simp [hu] at h
    | refused r => simp [hu] at h

/-- The instruction a leaf is runs as the leaf. -/
theorem exec_leafInstr (u : Leaf) {s : State} (hf : s.fault = none) : exec (leafInstr u) s = performLeaf u s := by
  cases u <;> simp [leafInstr, exec, execDrive, execDelay, execCurSet, execRaise, performLeaf, hf]

/-! ### The step -/

/-- Everything the block's own step can do when it answers a next state. -/
theorem blockStep_next {u t : State}
    (h : (match blockStep u with
      | .instr i v => exec i v
      | .done o => o) = .next t) :
    (∃ w rest i, u.busy = true ∧ u.pending = w :: rest ∧ decodeUop w = .ok i ∧ exec i { u with pending := rest } = .next t) ∨
      (u.busy = true ∧ u.pending = [] ∧ t = completeRequest u) ∨ (u.busy = false ∧ t = u) := by
  unfold blockStep at h
  by_cases hb : u.busy = true
  · rw [if_pos hb] at h
    cases hp : u.pending with
    | nil =>
      simp only [hp, Host.Outcome.next.injEq] at h
      exact .inr (.inl ⟨hb, rfl, h.symm⟩)
    | cons w rest =>
      simp only [hp] at h
      cases hd : decodeUop w with
      | ok i => exact .inl ⟨w, rest, i, hb, rfl, hd, by simpa only [hd] using h⟩
      | error e => simp [hd] at h
  · rw [if_neg hb] at h
    simp only [Host.Outcome.next.injEq] at h
    exact .inr (.inr ⟨by simpa using hb, h.symm⟩)

/-- Everything a step can do when it answers a next state: an illegal request is rejected; a presented request, a micro-op
of `pending` or a bus byte runs; the call in flight returns; or the idle block waits. -/
theorem step_next {s t : State} (h : step s = .next t) :
    s.fault = none ∧
      ((∃ w side rest, s.host = .present w side :: rest ∧ legalRequest w side = false ∧
          t = rejectRequest { s with host := rest }) ∨
       (∃ w side rest i, s.host = .present w side :: rest ∧ decodeRequest w side = .ok i ∧
          exec i { s with host := rest } = .next t) ∨
       (∃ w rest hs i, s.busy = true ∧ s.pending = w :: rest ∧ decodeUop w = .ok i ∧
          exec i { s with host := hs, pending := rest } = .next t) ∨
       (∃ w i, s.busIn = some w ∧ decodeBus w = .ok i ∧ exec i { s with busIn := none } = .next t) ∨
       (∃ hs, s.busy = true ∧ s.pending = [] ∧ t = completeRequest { s with host := hs }) ∨
       (∃ hs, s.busy = false ∧ t = { s with host := hs })) := by
  have block : ∀ hs, (match blockStep { s with host := hs } with
      | .instr i v => exec i v
      | .done o => o) = .next t →
      (∃ w rest hs i, s.busy = true ∧ s.pending = w :: rest ∧ decodeUop w = .ok i ∧
          exec i { s with host := hs, pending := rest } = .next t) ∨
       (∃ w i, s.busIn = some w ∧ decodeBus w = .ok i ∧ exec i { s with busIn := none } = .next t) ∨
       (∃ hs, s.busy = true ∧ s.pending = [] ∧ t = completeRequest { s with host := hs }) ∨
       (∃ hs, s.busy = false ∧ t = { s with host := hs }) := by
    intro hs hb
    rcases blockStep_next hb with ⟨w, rest, i, h1, h2, h3, h4⟩ | ⟨h1, h2, h3⟩ | ⟨h1, h2⟩
    · exact .inl ⟨w, rest, hs, i, h1, h2, h3, h4⟩
    · exact .inr (.inr (.inl ⟨hs, h1, h2, h3⟩))
    · exact .inr (.inr (.inr ⟨hs, h1, h2⟩))
  have hf : s.fault = none := by
    cases hf : s.fault with
    | none => rfl
    | some c => simp [step, fetch, hf] at h
  refine ⟨hf, ?_⟩
  obtain hbi | ⟨w, hbi⟩ : s.busIn = none ∨ ∃ w, s.busIn = some w := by cases s.busIn <;> simp
  · simp only [step, fetch, hf, hbi] at h
    obtain hh | ⟨m, rest, hh⟩ : s.host = [] ∨ ∃ m rest, s.host = m :: rest := by cases s.host <;> simp
    · simp only [hostStep, hh] at h
      exact .inr (.inr (block s.host h))
    · cases m with
      | present w side =>
        simp only [hostStep, hh, present] at h
        cases hd : decodeRequest w side with
        | ok i => exact .inr (.inl ⟨w, side, rest, i, hh, hd, by simpa only [hd] using h⟩)
        | error e =>
          simp only [hd, Host.Outcome.next.injEq] at h
          exact .inl ⟨w, side, rest, hh, by simp [legalRequest, hd], h.symm⟩
      | pass =>
        simp only [hostStep, hh] at h
        exact .inr (.inr (block rest h))
      | await =>
        simp only [hostStep, hh] at h
        by_cases hb : s.busy = true
        · rw [if_pos hb] at h
          exact .inr (.inr (block s.host h))
        · rw [if_neg hb] at h
          simp only [Host.Outcome.next.injEq] at h
          refine .inr (.inr (.inr (.inr (.inr ⟨rest, by simpa using hb, ?_⟩))))
          exact h.symm
  · simp only [step, fetch, hf, hbi, busStep] at h
    cases hd : decodeBus w with
    | ok i => exact .inr (.inr (.inr (.inl ⟨w, i, hbi, hd, by rw [hf]; simpa only [hd] using h⟩)))
    | error e => simp [hd] at h

/-- One more step of a run. -/
theorem run_succ {s t : State} (h : step s = .next t) (k : Nat) :
    Sys2Proof.core.run (k + 1) s = Sys2Proof.core.run k t := by
  have h' : Sys2Proof.core.step s = .next t := h
  simp only [Host.Core.run, h']

end Sys2Proof.Machine
end

