-- ==== Sys2Proof/Tests/Slice0.lean ====
section
/-! SUPPORT. Tests/Slice0.lean: small tests whose results come from the spec (95_test_vectors.md and the tables of
30_encoding.md), and for each obligation with hypotheses a witness that meets them. -/

namespace Sys2Proof.Tests

open Sys2Proof Sys2Proof.Machine

/-! ### The states of the tests -/

/-- Seven pairwise distinct descriptors. -/
def demoPins : Pins := ⟨⟨0⟩, ⟨1⟩, ⟨2⟩, ⟨3⟩, ⟨4⟩, ⟨5⟩, ⟨6⟩⟩

/-- A present instance with its cursor at `(r, c)`. -/
def demoSlot (r c : Byte) : Slot := ⟨true, demoPins, r, c⟩

/-- After reset, with slot 0 holding `slot` and bound as the active instance. -/
def demoAt (slot : Slot) : State := { State.reset with active := 0#4, insts := State.reset.insts.set 0 slot }

/-- Slot 0 present, cursor (0,0), idle. -/
def demo : State := demoAt (demoSlot 0#8 0#8)

/-- `demo` inside an operation, with `ws` still pending. -/
def busyDemo (ws : List UopWord) : State := { demo with busy := true, pending := ws }

/-- `s` whose host presents one request. -/
def asked (s : State) (w : ReqWord) (side : Side) : State := { s with host := [.present w side] }

theorem demoAt_inst (slot : Slot) (h : slot.present = true) : instOf (demoAt slot) 0#4 = some slot :=
  instOf_eq_some.2 ⟨rfl, h, Config.instanceCount_pos⟩

theorem demo_inst : instOf demo 0#4 = some (demoSlot 0#8 0#8) := demoAt_inst _ rfl

theorem busyDemo_inst (ws : List UopWord) : instOf (busyDemo ws) 0#4 = some (demoSlot 0#8 0#8) := demo_inst

theorem demo_quiet : quiet demo := ⟨rfl, rfl, rfl, rfl⟩

/-- What a micro-op or bus byte does to `demo`. -/
theorem demo_performs {i : Instr} (hi : isRequest i = false) (hg : ∀ u ∈ performedBy i, leafGoesOn u = true) :
    exec i demo = .next (afterLeaves (demoSlot 0#8 0#8) (performedBy i) demo) := by
  rw [exec_performs hi, unlessHalted_live rfl, performLeaves_goesOn _ hg demo_inst]

/-! ### WellFormed refuses an ill-formed term for each of its checks -/

theorem test_wf_delay_zero : (Instr.delay 0#12).wellFormed = false := by decide
theorem test_wf_delay_one : (Instr.delay 1#12).wellFormed = true := by decide
theorem test_wf_curSet_row : (Instr.curSet 2#4 0#8).wellFormedAt 16 = false := by decide
theorem test_wf_curSet_col : (Instr.curSet 0#4 16#8).wellFormedAt 16 = false := by decide
theorem test_wf_curSet_last : (Instr.curSet 1#4 15#8).wellFormedAt 16 = true := by decide
theorem test_wf_ddram_gap : (Instr.cmdSetDdramAddr 0x10#7).wellFormedAt 16 = false := by decide
theorem test_wf_ddram_end : (Instr.cmdSetDdramAddr 0x50#7).wellFormedAt 16 = false := by decide
theorem test_wf_ddram_last : (Instr.cmdSetDdramAddr 0x4F#7).wellFormedAt 16 = true := by decide

/-! ### Decoding: requests, from 95_test_vectors.md's table -/

theorem test_decode_init : decodeRequest 0x00000000#32 (.pins demoPins) = .ok (.init demoPins) := by decide
theorem test_decode_init_side : decodeRequest 0x00000000#32 .none = .error .wrongSide := by decide
theorem test_decode_init_handle : decodeRequest 0x00000010#32 (.pins demoPins) = .error .unusedBits := by decide
theorem test_decode_begin : decodeRequest 0x00000001#32 .none = .ok (.beginInit 0#4) := by decide
theorem test_decode_clear : decodeRequest 0x00000002#32 .none = .ok (.clearScreen 0#4) := by decide
theorem test_decode_home : decodeRequest 0x000000F3#32 .none = .ok (.home 0xF#4) := by decide
theorem test_decode_setCursor : decodeRequest 0x00FFFF14#32 .none = .ok (.setCursor 1#4 255#8 255#8) := by decide
theorem test_decode_putChar : decodeRequest 0x00005805#32 .none = .ok (.putChar 0#4 0x58#8) := by decide
theorem test_decode_putChar_b : decodeRequest 0x00015805#32 .none = .error .unusedBits := by decide
theorem test_decode_putStr_side : decodeRequest 0x00000006#32 .none = .error .wrongSide := by decide
theorem test_decode_reserved7 : decodeRequest 0x00000007#32 .none = .error .reservedOp := by decide
theorem test_decode_reservedF : decodeRequest 0x0000000F#32 .none = .error .reservedOp := by decide
theorem test_decode_rsv : decodeRequest 0x01000001#32 .none = .error .unusedBits := by decide

/-! ### Decoding: micro-ops and bus bytes, words written out from R81 to R83 and R95 -/

theorem test_decode_drive : decodeUop 0x0600#16 = .ok (.drive .D3 .L) := by decide
theorem test_decode_drive_line7 : decodeUop 0x0701#16 = .error .reservedLine := by decide
theorem test_decode_drive_unused : decodeUop 0x0003#16 = .error .unusedBits := by decide
theorem test_decode_delay : decodeUop 0x1FFF#16 = .ok (.delay 4095#12) := by decide
theorem test_decode_delay_zero : decodeUop 0x1000#16 = .error .zeroDelay := by decide
theorem test_decode_pulse : decodeUop 0x2000#16 = .ok .enablePulse := by decide
theorem test_decode_nibble : decodeUop 0x300A#16 = .ok (.writeNibble 0xA#4) := by decide
theorem test_decode_sendData : decodeUop 0x50C3#16 = .ok (.sendData 0xC3#8) := by decide
theorem test_decode_raise_zero : decodeUop 0x7000#16 = .error .reservedFaultCode := by decide
theorem test_decode_raise_five : decodeUop 0x7005#16 = .error .reservedFaultCode := by decide
theorem test_decode_uop8 : decodeUop 0x8000#16 = .error .reservedUop := by decide
theorem test_decode_functionSet : decodeBus 0x028#10 = .ok .cmdFunctionSet := by decide
theorem test_decode_displayControl : decodeBus 0x00F#10 = .ok .cmdDisplayControl := by decide
theorem test_decode_entryMode : decodeBus 0x006#10 = .ok .cmdEntryMode := by decide
theorem test_decode_cmdClear : decodeBus 0x001#10 = .ok .cmdClear := by decide
theorem test_decode_cmdHome : decodeBus 0x002#10 = .ok .cmdHome := by decide
theorem test_decode_bus_rw : decodeBus 0x128#10 = .error .notABusByte := by decide

/-! ### Table words through the host's numbering -/

theorem test_table_putStr : decodeTableWord 32 0x00000056 = some (.putStr 5#4 [0x00#8]) := by decide
theorem test_table_curSet : decodeTableWord 16 0x6103 = some (.curSet 1#4 3#8) := by decide
theorem test_table_dataWrite : decodeTableWord 10 0x241 = some (.dataWrite 0x41#8) := by decide
theorem test_table_bus16 : decodeTableWord 16 0x0241 = some (.dataWrite 0x41#8) := by decide

/-! ### Expansions, from the tables of 95_test_vectors.md -/

/-- WRITENIBBLE 0x2 (R104). -/
theorem test_nibble_leaves : (writeNibbleLeaves 0x2#4).map leafWord =
    [0x0300#16, 0x0401#16, 0x0500#16, 0x0600#16, 0x0001#16, 0x1001#16, 0x0000#16, 0x1001#16, 0x0001#16] := by decide

/-- SC(0x01) (R120). -/
theorem test_sendCommand_leaves : (sendCommandLeaves 0x01#8).map leafWord =
    [0x0100#16, 0x0200#16,
     0x0300#16, 0x0400#16, 0x0500#16, 0x0600#16, 0x0001#16, 0x1001#16, 0x0000#16, 0x1001#16, 0x0001#16,
     0x0301#16, 0x0400#16, 0x0500#16, 0x0600#16, 0x0001#16, 0x1001#16, 0x0000#16, 0x1001#16, 0x0001#16] := by decide

/-- SD(0x41) (R121). -/
theorem test_sendData_leaves : (sendDataLeaves 0x41#8).map leafWord =
    [0x0101#16, 0x0200#16,
     0x0300#16, 0x0400#16, 0x0501#16, 0x0600#16, 0x0001#16, 0x1001#16, 0x0000#16, 0x1001#16, 0x0001#16,
     0x0301#16, 0x0400#16, 0x0500#16, 0x0600#16, 0x0001#16, 0x1001#16, 0x0000#16, 0x1001#16, 0x0001#16] := by decide

/-- BEGIN's steps 1 and 2 of P1. -/
theorem test_begin_leaves : (beginLeaves.map leafWord).take 25 =
    [0x0000#16, 0x0100#16, 0x0200#16, 0x100A#16, 0x0100#16, 0x0200#16,
     0x0300#16, 0x0401#16, 0x0500#16, 0x0600#16, 0x0001#16, 0x1001#16, 0x0000#16, 0x1001#16, 0x0001#16,
     0x0300#16, 0x0400#16, 0x0500#16, 0x0601#16, 0x0001#16, 0x1001#16, 0x0000#16, 0x1001#16, 0x0001#16,
     0x1005#16] := by decide

/-- BEGIN's last five leaves of P1: the end of Home's pulse, its delay and CURSET, and the final wait. -/
theorem test_begin_end : (beginLeaves.map leafWord).drop 107 =
    [0x1001#16, 0x0001#16, 0x1001#16, 0x6000#16, 0x11F4#16] := by decide

/-- CLEARSCREEN's end: 1001 6000. -/
theorem test_clear_end : (clearScreenLeaves.map leafWord).drop 20 = [0x1001#16, 0x6000#16] := by decide

/-- HOME is SC(0x02) 1001 6000. -/
theorem test_home_leaves : homeLeaves = sendCommandLeaves 0x02#8 ++ [.delay 1#12, .curSet 0#4 0#8] := by decide

/-- SETCURSOR (1,3): SC(0xC3) 1001 6103. -/
theorem test_setCursor_leaves :
    setCursorLeaves 16 1#8 3#8 = sendCommandLeaves 0xC3#8 ++ [.delay 1#12, .curSet 1#4 3#8] := by decide

/-- SETCURSOR (255,255): SC(0xCF) 1001 610F. -/
theorem test_setCursor_wraps :
    setCursorLeaves 16 255#8 255#8 = sendCommandLeaves 0xCF#8 ++ [.delay 1#12, .curSet 1#4 15#8] := by decide

/-- PUTCHAR from (0,15): SD(0x41) 1001 6100, no address command. -/
theorem test_putChar_row_end :
    putCharLeaves 16 0#8 15#8 0x41#8 = sendDataLeaves 0x41#8 ++ [.delay 1#12, .curSet 1#4 0#8] := by decide

/-- PUTCHAR from (1,15): SD(0x42) 1001 6000. -/
theorem test_putChar_last_cell :
    putCharLeaves 16 1#8 15#8 0x42#8 = sendDataLeaves 0x42#8 ++ [.delay 1#12, .curSet 0#4 0#8] := by decide

/-- PUTSTR "AB" from (0,0): SD(0x41) 1001 6001 SD(0x42) 1001 6002 (P3). -/
theorem test_putStr_leaves :
    putStrLeaves 16 0#8 0#8 [0x41#8, 0x42#8, 0x00#8] =
      sendDataLeaves 0x41#8 ++ [.delay 1#12, .curSet 0#4 1#8]
        ++ sendDataLeaves 0x42#8 ++ [.delay 1#12, .curSet 0#4 2#8] := by decide

/-- PUTSTR [0x41] from (0,0): SD(0x41) 1001 6001 7004 (P7). -/
theorem test_putStr_unterminated :
    putStrLeaves 16 0#8 0#8 [0x41#8] =
      sendDataLeaves 0x41#8 ++ [.delay 1#12, .curSet 0#4 1#8, .raise .stringUnterminated] := by decide

/-- The address law T1. -/
theorem test_address_law : setDdramByte (ddramAddr (wrapRow 1#8) (wrapColumn 16 15#8)) = 0xCF#8 := by decide

/-! ### Latches, from 95_test_vectors.md -/

/-- SC(0x28) latches (0,0,2) then (0,0,8) (T10). -/
theorem test_latch_order : latchSequences demoPins (byteEvents demoPins .L 0x28#8) =
    [[nibbleTransfer .L 0x2#4, nibbleTransfer .L 0x8#4]] := by decide

/-- A drive of E low from X is a possible edge: both readings (R106). -/
theorem test_latch_possible : latchSequences demoPins [.drive demoPins.e .L] =
    [[⟨.X, .X, .X, .X, .X, .X⟩], []] := by decide

/-- The aliasing corner: D0 = D1 = q, WRITENIBBLE 0x1 leaves q low. -/
theorem test_alias_last_wins : levelOf (replayFrom [] (nibbleEvents ⟨⟨0⟩, ⟨1⟩, ⟨2⟩, ⟨3⟩, ⟨3⟩, ⟨5⟩, ⟨6⟩⟩ 0x1#4)) ⟨3⟩ = .L := by
  decide

/-! ### One step of each kind of instruction -/

/-- DRIVE D2 H (0x0501). -/
theorem test_exec_drive : exec (.drive .D2 .H) demo
    = .next { demo with level := [(⟨5⟩, .H)], trace := [.drive ⟨5⟩ .H] } := by
  rw [demo_performs rfl (by decide)]; rfl

/-- DELAY 500 (0x11F4): levels unchanged. -/
theorem test_exec_delay : exec (.delay 500#12) demo = .next { demo with trace := [.delay 500] } := by
  rw [demo_performs rfl (by decide)]; rfl

/-- ENABLEPULSE's waveform (T9). -/
theorem test_exec_pulse : exec .enablePulse demo = .next
    { demo with
      level := [(⟨0⟩, .H)]
      trace := [.drive ⟨0⟩ .H, .delay 1, .drive ⟨0⟩ .L, .delay 1, .drive ⟨0⟩ .H] } := by
  rw [demo_performs rfl (by decide)]; rfl

/-- SENDDATA 0xFF ends with RS H and RW L. -/
theorem test_exec_sendData : (afterLeaves (demoSlot 0#8 0#8) (performedBy (.sendData 0xFF#8)) demo).level =
    [(⟨0⟩, .H), (⟨1⟩, .H), (⟨2⟩, .L), (⟨3⟩, .H), (⟨4⟩, .H), (⟨5⟩, .H), (⟨6⟩, .H)] := by decide

/-- CURSET 0x6103 sets (1,3) and appends nothing. -/
theorem test_exec_curSet : exec (.curSet 1#4 3#8) demo
    = .next { demo with insts := State.reset.insts.set 0 (demoSlot 1#8 3#8) } := by
  rw [demo_performs rfl (by decide)]; rfl

/-- RAISE 4 records the code. -/
theorem test_exec_raise : exec (.raise .stringUnterminated) demo
    = .next { demo with fault := some .stringUnterminated } := rfl

/-- CLEARSCREEN 0 after reset: fault 1, trace empty. -/
theorem test_absent_handle : step (asked State.reset 0x00000002#32 .none)
    = .next { State.reset with fault := some .absentHandle } := by rfl

/-- 0x00000007 after reset: fault 2. -/
theorem test_illegal_request : step (asked State.reset 0x00000007#32 .none)
    = .next { State.reset with fault := some .illegalRequest } := by rfl

/-- ILLEGAL before ABSENT: 0x010000F3. -/
theorem test_illegal_before_absent : step (asked demo 0x010000F3#32 .none)
    = .next { demo with fault := some .illegalRequest } := by rfl

/-- HOME 0 on a busy block: fault 3, `pending` untouched. -/
theorem test_reentry : step (asked (busyDemo [0x0001#16]) 0x00000003#32 .none)
    = .next { busyDemo [0x0001#16] with fault := some .reentry } := by rfl

/-- A reserved request on a busy block is REENTRY too. -/
theorem test_reentry_first : step (asked (busyDemo [0x0001#16]) 0x00000007#32 .none)
    = .next { busyDemo [0x0001#16] with fault := some .reentry } := by rfl

/-- INIT after reset calls no IO, whatever the draw. -/
theorem test_init_no_io (p : Pins) : ∃ t, exec (.init p) State.reset = .next t ∧ t.trace = [] ∧ t.level = [] ∧
    t.active = 0xF#4 ∧ t.busy = false := by
  refine ⟨initBody p State.reset, rfl, ?_⟩
  unfold initBody
  split <;> exact ⟨rfl, rfl, rfl, rfl⟩

/-- A request placed after reset is what the next step runs. -/
theorem test_withFetchWord_begin : step (State.reset.withFetchWord 32 0x00000001)
    = .next { State.reset with fault := some .absentHandle } := by rfl

/-! ### Witnesses: for each obligation with hypotheses, a state and operands that meet them -/

theorem witness_DecodeEncodeRoundTrip :
    (Instr.delay 1#12).wellFormed = true ∧ (Instr.delay 0xFFF#12).wellFormed = true ∧
    (Instr.curSet 1#4 0#8).wellFormed = true ∧ (Instr.cmdSetDdramAddr 0#7).wellFormed = true ∧
    (Instr.cmdSetDdramAddr 0x40#7).wellFormed = true := by
  refine ⟨by decide, by decide, ?_, ?_, ?_⟩ <;>
    simp [Instr.wellFormed, Instr.wellFormedAt, ddramAddrOk, Config.displayRows, Config.row1Base, Config.displayWidth_pos]

theorem witness_AcceptedCodesAreCanonical :
    decode (.request 0x00FFFF14#32 .none) = .ok (.setCursor 1#4 255#8 255#8) ∧
    decode (.uop 0x0601#16) = .ok (.drive .D3 .H) ∧ decode (.bus 0x0FF#10) = .ok (.cmdSetDdramAddr 0x7F#7) := by decide

theorem witness_IllegalRequestsAreRejected_rows :
    legalRequest 0x00000000#32 (.pins demoPins) = true ∧ legalRequest 0x000000F1#32 .none = true ∧
    legalRequest 0x000000F2#32 .none = true ∧ legalRequest 0x000000F3#32 .none = true ∧
    legalRequest 0x00FFFFF4#32 .none = true ∧ legalRequest 0x0000FFF5#32 .none = true ∧
    legalRequest 0x000000F6#32 (.bytes []) = true := by decide

theorem witness_IllegalRequestsAreRejected :
    (asked demo 0x01000001#32 .none).fault = none ∧ (asked demo 0x01000001#32 .none).busy = false ∧
    (asked demo 0x01000001#32 .none).busIn = none ∧
    (asked demo 0x01000001#32 .none).host = .present 0x01000001#32 .none :: [] ∧
    legalRequest 0x01000001#32 .none = false ∧ legalRequest 0x00000007#32 .none = false ∧
    legalRequest 0x00000001#32 (.bytes []) = false := by decide

theorem witness_MicroOpsAreExactlyTheTableRows :
    decodeUop 0x0601#16 = .ok (.drive .D3 .H) ∧ decodeUop 0x1001#16 = .ok (.delay 1#12) ∧
    decodeUop 0x2000#16 = .ok .enablePulse ∧ decodeUop 0x300F#16 = .ok (.writeNibble 0xF#4) ∧
    decodeUop 0x40FF#16 = .ok (.sendCommand 0xFF#8) ∧ decodeUop 0x50FF#16 = .ok (.sendData 0xFF#8) ∧
    decodeUop 0x6FFF#16 = .ok (.curSet 0xF#4 0xFF#8) ∧ decodeUop 0x7001#16 = .ok (.raise .absentHandle) ∧
    decodeUop 0x7004#16 = .ok (.raise .stringUnterminated) := by decide

theorem witness_StepRunsDecodedInstruction :
    ((asked demo 0x00000002#32 .none).fault = none ∧ (asked demo 0x00000002#32 .none).busIn = none ∧
      (asked demo 0x00000002#32 .none).host = .present 0x00000002#32 .none :: [] ∧
      decode (.request 0x00000002#32 .none) = .ok (.clearScreen 0#4)) ∧
    ((busyDemo [0x0001#16]).fault = none ∧ (busyDemo [0x0001#16]).busIn = none ∧ (busyDemo [0x0001#16]).host = [] ∧
      (busyDemo [0x0001#16]).busy = true ∧ (busyDemo [0x0001#16]).pending = 0x0001#16 :: [] ∧
      decode (.uop 0x0001#16) = .ok (.drive .E .H)) ∧
    ({ busyDemo [0x0001#16] with host := [.pass] } : State).host = .pass :: [] ∧
    ({ busyDemo [0x0001#16] with host := [.await] } : State).host = .await :: [] ∧
    (({ demo with busIn := some 0x241#10 } : State).fault = none ∧
      ({ demo with busIn := some 0x241#10 } : State).busIn = some 0x241#10 ∧
      decode (.bus 0x241#10) = .ok (.dataWrite 0x41#8)) := by decide

/-- No move left, a pass, and a wait. -/
theorem witness_EmptyPendingCompletes :
    ∀ moves ∈ [[], [HostMove.pass], [HostMove.await, .pass]],
      ({ busyDemo [] with host := moves } : State).fault = none ∧ ({ busyDemo [] with host := moves } : State).busIn = none ∧
      ({ busyDemo [] with host := moves } : State).busy = true ∧ ({ busyDemo [] with host := moves } : State).pending = [] := by
  decide

/-- R17: left waiting or passing, an idle block's run has ended; with a request still to come, or busy, it has not. -/
theorem test_runEnded :
    runEnded { demo with host := [.await, .pass] } = true ∧
    runEnded { demo with host := [.pass, .present 0x00000003#32 .none] } = false ∧
    runEnded (busyDemo []) = false ∧ runEnded { busyDemo [] with fault := some .reentry } = true := by decide

/-- An idle block whose host waits, and a halted one. -/
theorem witness_EndedRunIsFinal :
    runEnded { demo with host := [.await] } = true ∧ ({ demo with host := [.await] } : State).fault = none ∧
    ({ demo with fault := some .reentry } : State).fault = some .reentry := by decide

theorem witness_IdleBlockWaits :
    demo.fault = none ∧ demo.busIn = none ∧ demo.busy = false ∧ demo.host = [] ∧
    ({ demo with host := [.pass] } : State).host = .pass :: [] ∧
    ({ demo with host := [.await] } : State).host = .await :: [] := by decide

theorem witness_PlacedInstructionRunsNext :
    decode (.request 0x00000003#32 .none) = .ok (.home 0#4) ∧ decode (.uop 0x2000#16) = .ok .enablePulse ∧
    decode (.bus 0x00F#10) = .ok .cmdDisplayControl := by decide

/-- For DriveDrivesOneLine, EnablePulseWaveform, WriteNibbleDrivesItsBits and CurSetWritesCursor. -/
theorem witness_active_instance :
    demo.fault = none ∧ instOf demo demo.active = some (demoSlot 0#8 0#8) ∧
    pinsDistinct (demoSlot 0#8 0#8).pins = true := ⟨rfl, demo_inst, by decide⟩

theorem witness_SendByteFramesTwoNibbles :
    demo.fault = none ∧ instOf demo demo.active = some (demoSlot 0#8 0#8) ∧
    (Instr.sendCommand 0x28#8, Level.L) ∈ [(Instr.sendCommand 0x28#8, Level.L), (Instr.sendData 0x28#8, Level.H)] ∧
    (Instr.sendData 0x28#8, Level.H) ∈ [(Instr.sendCommand 0x28#8, Level.L), (Instr.sendData 0x28#8, Level.H)] :=
  ⟨rfl, demo_inst, by decide, by decide⟩

/-- The list of BusBytesAreSent has its address row and its data row. -/
theorem witness_BusBytesAreSent :
    demo.fault = none ∧ instOf demo demo.active = some (demoSlot 0#8 0#8) ∧
    ∀ x ∈ [(Instr.cmdSetDdramAddr 0x43#7, Level.L, BitVec.ofNat 8 (0x80 + (0x43#7).toNat)),
        (Instr.dataWrite 0x41#8, Level.H, 0x41#8)],
      x ∈ [(Instr.cmdFunctionSet, Level.L, 0x28#8), (.cmdDisplayControl, .L, 0x0F#8), (.cmdEntryMode, .L, 0x06#8),
        (.cmdClear, .L, 0x01#8), (.cmdHome, .L, 0x02#8),
        (.cmdSetDdramAddr 0x43#7, .L, BitVec.ofNat 8 (0x80 + (0x43#7).toNat)), (.dataWrite 0x41#8, .H, 0x41#8)] :=
  ⟨rfl, demo_inst, by decide⟩

theorem witness_DelayRequestsOneWait :
    demo.fault = none ∧ 1 ≤ (1#12).toNat ∧ 1 ≤ (0xFFF#12).toNat := by decide

/-- For NibbleMakesOneLatch, FramingLaw, BeginLatchSequence and PutStrLatchesItsCharacters. -/
theorem witness_BeginLatchSequence :
    pinsDistinct demoPins = true ∧ levelOf [(demoPins.e, .L)] demoPins.e = .L ∧
    levelOf [(demoPins.e, .H)] demoPins.e = .H ∧ levelOf [] demoPins.e = .X := by decide

theorem witness_BeginLeavesLines :
    pinsDistinct demoPins = true ∧
    (Line.D3, Seen.L) ∈ [(Line.E, Seen.H), (.RS, .L), (.RW, .L), (.D0, .L), (.D1, .H), (.D2, .L), (.D3, .L)] := by decide

theorem witness_PendingRunsToCompletion :
    (busyDemo ([Leaf.drive .E .H, .curSet 1#4 0#8].map leafWord)).pending
      = [Leaf.drive .E .H, .curSet 1#4 0#8].map leafWord ∧
    (∀ u ∈ [Leaf.drive .E .H, .curSet 1#4 0#8], leafGoesOn u = true) ∧
    (busyDemo ([Leaf.drive .E .H, .curSet 1#4 0#8].map leafWord)).busy = true ∧
    quiet { busyDemo ([Leaf.drive .E .H, .curSet 1#4 0#8].map leafWord) with busy := false } ∧
    instOf (busyDemo ([Leaf.drive .E .H, .curSet 1#4 0#8].map leafWord)) 0#4 = some (demoSlot 0#8 0#8) :=
  ⟨rfl, by decide, rfl, demo_quiet, busyDemo_inst _⟩

/-- Every slot present: INIT's first clause. -/
theorem witness_Init_none_free :
    ({ State.reset with insts := Vector.replicate 15 (demoSlot 0#8 0#8) } : State).fault = none ∧
    ({ State.reset with insts := Vector.replicate 15 (demoSlot 0#8 0#8) } : State).busy = false ∧
    (∀ k : Fin 15, k.val < Config.instanceCount →
      ({ State.reset with insts := Vector.replicate 15 (demoSlot 0#8 0#8) } : State).insts[k].present = true) := by
  refine ⟨rfl, rfl, ?_⟩
  intro k _; simp [demoSlot]

/-- The first slot free: INIT's second clause at its least `h`. -/
theorem witness_Init_first_free :
    State.reset.fault = none ∧ State.reset.busy = false ∧ (0 : Fin 15).val < Config.instanceCount ∧ State.reset.insts[(0 : Fin 15)].present = false ∧
    (∀ k : Fin 15, k < 0 → State.reset.insts[k].present = true) :=
  ⟨rfl, rfl, Config.instanceCount_pos, rfl, fun k hk => absurd hk (by simp)⟩

/-- Only the last slot that exists free: INIT's second clause at its greatest `h`. -/
theorem witness_Init_last_free :
    let h := Config.instanceCountLess1
    let v : Vector Slot 15 := Vector.ofFn fun k => if k < h then demoSlot 0#8 0#8 else Slot.reset
    h.val < Config.instanceCount ∧ v[h].present = false ∧ ∀ k : Fin 15, k < h → v[k].present = true := by
  refine ⟨Nat.lt_succ_self _, ?_, ?_⟩
  · simp [Slot.reset]
  · intro k hk; simp [hk, demoSlot]

/-- For BeginRunsItsSequence, ClearScreenRuns, HomeRuns, HomeIsIdempotent and SetCursorRuns. -/
theorem witness_quiet_instance : quiet demo ∧ instOf demo 0#4 = some (demoSlot 0#8 0#8) := ⟨demo_quiet, demo_inst⟩

/-- The three kinds of cursor, on this block's display. -/
theorem witness_cursors :
    cursorOk Config.displayWidth 0#8 0#8 = true ∧
    cursorOk Config.displayWidth 0#8 (BitVec.ofNat 8 (Config.displayWidth - 1)) = true ∧
    cursorOk Config.displayWidth 1#8 (BitVec.ofNat 8 (Config.displayWidth - 1)) = true := by
  have h1 := Config.displayWidth_pos
  have h2 := Config.displayWidth_le
  simp only [cursorOk, Config.displayRows, BitVec.toNat_ofNat, Bool.and_eq_true, decide_eq_true_eq]
  omega

/-- For PutCharRuns: at the last cell, and (with `witness_quiet_instance`) at the first. -/
theorem witness_PutCharRuns :
    quiet (demoAt (demoSlot 1#8 (BitVec.ofNat 8 (Config.displayWidth - 1)))) ∧
    instOf (demoAt (demoSlot 1#8 (BitVec.ofNat 8 (Config.displayWidth - 1)))) 0#4
      = some (demoSlot 1#8 (BitVec.ofNat 8 (Config.displayWidth - 1))) ∧
    cursorOk Config.displayWidth (demoSlot 1#8 (BitVec.ofNat 8 (Config.displayWidth - 1))).row
      (demoSlot 1#8 (BitVec.ofNat 8 (Config.displayWidth - 1))).col = true :=
  ⟨⟨rfl, rfl, rfl, rfl⟩, demoAt_inst _ rfl, witness_cursors.2.2⟩

theorem witness_AdvanceIsCircular :
    cursorOk 1 1#8 0#8 = true ∧ cursorOk 16 0#8 15#8 = true ∧ cursorOk 64 1#8 63#8 = true := by decide

/-- For PutStrRuns, and RequestedDelayTable: a sequence whose first zero is at its start, and one with characters. -/
theorem witness_PutStrRuns :
    quiet demo ∧ instOf demo 0#4 = some (demoSlot 0#8 0#8) ∧
    cursorOk Config.displayWidth (demoSlot 0#8 0#8).row (demoSlot 0#8 0#8).col = true ∧
    0#8 ∈ [0x00#8, 0x41#8] ∧ 0#8 ∈ [0x41#8, 0x42#8, 0x00#8] :=
  ⟨demo_quiet, demo_inst, witness_cursors.1, by decide, by decide⟩

/-- For UnterminatedStringFaults, and RequestedDelayTable: the empty sequence, and one with no zero. -/
theorem witness_UnterminatedStringFaults :
    quiet demo ∧ instOf demo 0#4 = some (demoSlot 0#8 0#8) ∧
    cursorOk Config.displayWidth (demoSlot 0#8 0#8).row (demoSlot 0#8 0#8).col = true ∧
    0#8 ∉ ([] : List Byte) ∧ 0#8 ∉ [0x41#8] :=
  ⟨demo_quiet, demo_inst, witness_cursors.1, by decide, by decide⟩

/-- The end, a zero byte, and a character. -/
theorem witness_PutStrReadsByMemRead :
    1 ≤ [0x41#8].length ∧ memRead [0x41#8] 1 = .error .stringUnterminated ∧
    0 ≤ [0x00#8].length ∧ memRead [0x00#8] 0 = .ok 0x00#8 ∧
    0 ≤ [0x41#8].length ∧ memRead [0x41#8] 0 = .ok 0x41#8 := ⟨by decide, rfl, by decide, rfl, by decide, rfl⟩

theorem witness_EnableLeftHigh : beforeZero [0x41#8, 0x00#8] ≠ [] ∧ beforeZero [0x41#8] ≠ [] := by decide

/-- Draws for one pulse; a total of one more than it requests; and draws for PUTSTR of one byte, with a zero and without. -/
theorem witness_ElapsedAtLeastRequested :
    elapsedFits (eventsOf demoPins enablePulseLeaves) [1, 731] = true ∧ 2 ≤ 3 ∧
    0#8 ∈ [0x41#8, 0x00#8] ∧
    elapsedFits (eventsOf demoPins (putStrLeaves 16 0#8 0#8 [0x41#8, 0x00#8])) [1, 1, 1, 1, 9] = true ∧
    0#8 ∉ [0x41#8] ∧ elapsedFits (eventsOf demoPins (putStrLeaves 16 0#8 0#8 [0x41#8])) [1, 2, 1, 1, 1] = true := by decide

theorem witness_RaiseHaltsTheBlock :
    demo.fault = none ∧ ({ demo with fault := some .reentry } : State).fault = some .reentry := by decide

/-- A busy block; an illegal request; an absent handle; a present one; and INIT, which names none. -/
theorem witness_FaultPriority :
    (asked demo 0x00000003#32 .none).fault = none ∧ (asked demo 0x00000003#32 .none).busIn = none ∧
    (asked demo 0x00000003#32 .none).host = .present 0x00000003#32 .none :: [] ∧
    (asked (busyDemo []) 0x00000003#32 .none).busy = true ∧
    (asked demo 0x010000F3#32 .none).busy = false ∧ legalRequest 0x010000F3#32 .none = false ∧
    decodeRequest 0x000000F3#32 .none = .ok (.home 0xF#4) ∧ requestHandle (.home 0xF#4) = some 0xF#4 ∧
    instOf demo 0xF#4 = none ∧
    decodeRequest 0x00000003#32 .none = .ok (.home 0#4) ∧ (∀ h, requestHandle (.home 0#4) = some h → instOf demo h ≠ none) ∧
    (∀ h, requestHandle (.init demoPins) = some h → instOf demo h ≠ none) := by
  refine ⟨rfl, rfl, rfl, rfl, rfl, by decide, by decide, rfl, rfl, by decide, ?_, ?_⟩
  · intro h hh
    cases hh
    rw [demo_inst]; simp
  · intro h hh; cases hh

theorem witness_AbsentHandlesAreRejected :
    State.reset.fault = none ∧ State.reset.busy = false ∧ requestHandle (.beginInit 0#4) = some 0#4 ∧
    instOf State.reset 0#4 = none ∧ instOf demo 0xE#4 = none := by
  refine ⟨rfl, rfl, rfl, rfl, rfl⟩

/-- A block inside an operation, with RW and E still to be driven, meets both invariants. -/
theorem witness_invariants : BlockInv (busyDemo [0x0200#16, 0x0001#16]) ∧ LineInv (busyDemo [0x0200#16, 0x0001#16]) := by
  have hpend : ∀ w ∈ (busyDemo [0x0200#16, 0x0001#16]).pending, leafOk w = true := by
    intro w hw
    have hw : w ∈ [0x0200#16, 0x0001#16] := hw
    simp only [List.mem_cons, List.not_mem_nil, or_false] at hw
    rcases hw with rfl | rfl
    · have h : decodeUop 0x0200#16 = .ok (.drive .RW .L) := by decide
      simp only [leafOk, h]; rfl
    · have h : decodeUop 0x0001#16 = .ok (.drive .E .H) := by decide
      simp only [leafOk, h]; rfl
  have hslots : ∀ h : Fin 15, slotOk h (busyDemo [0x0200#16, 0x0001#16]).insts[h] = true := by
    have hp := Config.displayWidth_pos
    have hn := Config.instanceCount_pos
    intro h
    rcases Nat.eq_zero_or_pos h.val with h0 | h0
    · have hh : h = 0 := Fin.ext h0
      subst hh
      show slotOk 0 (demoSlot 0#8 0#8) = true
      simp [slotOk, demoSlot, cursorOk, Config.displayRows, hp, hn]
    · have hs : (busyDemo [0x0200#16, 0x0001#16]).insts[h] = Slot.reset := by revert h; decide
      rw [hs]; rfl
  constructor
  · exact ⟨hpend, fun h => (by cases h), fun _ => Option.isSome_iff_exists.2 ⟨_, busyDemo_inst _⟩, hslots⟩
  · exact ⟨rfl, rfl, fun n h => by cases h⟩

/-- The step of that block: RW low is driven. For StepKeepsInvariant, StepKeepsLineInvariant, TraceIsAppendOnly and
InstancesAndPinsPersist. -/
theorem witness_step : step (busyDemo [0x0200#16, 0x0001#16]) = .next
    { busyDemo [0x0001#16] with level := [(⟨2⟩, .L)], trace := [.drive ⟨2⟩ .L] } ∧
    (busyDemo [0x0200#16, 0x0001#16]).insts[(0 : Fin 15)].present = true := by
  refine ⟨?_, rfl⟩
  have h : step (busyDemo [0x0200#16, 0x0001#16]) = exec (.drive .RW .L) (busyDemo [0x0001#16]) := rfl
  rw [h, exec_performs rfl, unlessHalted_live rfl, performedBy, performLeaves_single, performLeaf,
    driveLine_of_instOf (busyDemo_inst _)]
  rfl

/-- For OtherInstancesUntouched: slot 1 present, slot 0 active. -/
theorem witness_OtherInstancesUntouched :
    let s : State := { demo with insts := demo.insts.set 1 (demoSlot 0#8 0#8), host := [.pass] }
    step s = .next { s with host := [] } ∧ s.insts[(1 : Fin 15)].present = true ∧
    (1 : Fin 15).val ≠ s.active.toNat := ⟨rfl, rfl, by decide⟩

/-- For RwNeverDrivenHigh: descriptor 2, which no instance uses but as RW. -/
theorem witness_RwNeverDrivenHigh :
    BlockInv (busyDemo [0x0200#16, 0x0001#16]) ∧
    (∃ t, step (busyDemo [0x0200#16, 0x0001#16]) = .next t) ∧
    (∀ (h : Handle) (slot : Slot) (ln : Line), instOf (busyDemo [0x0200#16, 0x0001#16]) h = some slot → ln ≠ .RW →
      pinOf slot.pins ln ≠ ⟨2⟩) ∧
    levelOf (busyDemo [0x0200#16, 0x0001#16]).level ⟨2⟩ ≠ .H := by
  refine ⟨witness_invariants.1, ⟨_, witness_step.1⟩, ?_, by decide⟩
  intro h slot ln hs hl
  obtain ⟨h1, h2, _⟩ := instOf_eq_some.1 hs
  have hslot : slot = demoSlot 0#8 0#8 := by
    have key : ∀ a : Handle, ∀ sl, (busyDemo [0x0200#16, 0x0001#16]).insts[a.toNat]? = some sl → sl.present = true →
        sl = demoSlot 0#8 0#8 := by
      intro a sl
      revert sl
      revert a
      decide
    exact key h slot h1 h2
  subst hslot
  revert hl
  cases ln <;> decide

/-- For OnlyAcceptanceWritesActive: CLEARSCREEN 0 accepted on a block whose `active` is NONE. -/
theorem witness_OnlyAcceptanceWritesActive :
    ∃ t, step (asked { demo with active := 0xF#4 } 0x00000002#32 .none) = .next t ∧ t.active ≠ 0xF#4 := by
  have h : step (asked { demo with active := 0xF#4 } 0x00000002#32 .none)
      = acceptRequest 0#4 (expansionOf (.clearScreen 0#4)) { demo with active := 0xF#4 } := rfl
  have hi : instOf { demo with active := 0xF#4 } 0#4 = some (demoSlot 0#8 0#8) := demo_inst
  exact ⟨_, h.trans (acceptRequest_ready _ rfl rfl hi), by decide⟩

end Sys2Proof.Tests
end

section
/-! The end of a run (00_scope.md R17): what `runEnded` says of a live and of a halted block, and the one step each of them
has. -/

namespace Sys2Proof.Machine

/-! ### When a run has ended -/

theorem HostMove.isPresent_iff {m : HostMove} : m.isPresent = true ↔ ∃ w side, m = .present w side := by
  cases m <;> simp [HostMove.isPresent]

theorem noFurtherRequest_iff {s : State} :
    noFurtherRequest s = true ↔ s.busIn = none ∧ ∀ w side, HostMove.present w side ∉ s.host := by
  have hhost : (s.host.all fun m => !m.isPresent) = true ↔ ∀ w side, HostMove.present w side ∉ s.host := by
    simp only [List.all_eq_true, Bool.not_eq_true', Bool.eq_false_iff, ne_eq, HostMove.isPresent_iff]
    constructor
    · intro h w side hm
      exact h _ hm ⟨w, side, rfl⟩
    · rintro h _ hm ⟨w, side, rfl⟩
      exact h w side hm
  rw [noFurtherRequest, Bool.and_eq_true, hhost, Option.isNone_iff_eq_none, and_comm]

theorem runEnded_live {s : State} (hf : s.fault = none) :
    runEnded s = true ↔
      s.busy = false ∧ s.busIn = none ∧ ∀ w side, HostMove.present w side ∉ s.host := by
  simp [runEnded, hf, noFurtherRequest_iff]

theorem runEnded_halted {s : State} {c : FaultCode} (hf : s.fault = some c) : runEnded s = true := by
  simp [runEnded, hf]

/-! ### The step of a halted and of a waiting block -/

/-- R185; log entry 7. -/
theorem step_halted {s : State} {c : FaultCode} (hf : s.fault = some c) : step s = .fault (.halted c) := by
  simp [step, fetch, hf]

theorem blockStep_idle {s : State} (hb : s.busy = false) : blockStep s = .done (.next s) := by
  simp [blockStep, hb]

/-- R194, log entry 18: an idle block whose host does not present next only uses up the host's move, if there is one. -/
theorem step_idle {s : State} (hf : s.fault = none) (hbus : s.busIn = none) (hb : s.busy = false)
    (hno : ∀ w side rest, s.host ≠ .present w side :: rest) :
    step s = .next { s with host := s.host.tail } := by
  have hfetch : fetch s = hostStep s := by simp [fetch, hf, hbus]
  have hwait : hostStep s = .done (.next { s with host := s.host.tail }) := by
    cases hh : s.host with
    | nil =>
      have hs : { s with host := [] } = s := by rw [← hh]
      simp [hostStep, hh, blockStep_idle hb, hs]
    | cons m rest =>
      cases m with
      | present w side => exact absurd hh (hno w side rest)
      | pass => simp [hostStep, hh, blockStep_idle, hb]
      | await => simp [hostStep, hh, hb]
  rw [step, hfetch, hwait]

/-- The run of a live block, once ended, stays so, and the observation is final. -/
theorem step_of_runEnded {s : State} (hend : runEnded s = true) (hf : s.fault = none) :
    ∃ t, step s = .next t ∧ t.fault = none ∧ runEnded t = true ∧ observe t = observe s := by
  obtain ⟨hb, hbus, hno⟩ := (runEnded_live hf).1 hend
  have hstep := step_idle hf hbus hb fun w side rest hh => hno w side (hh ▸ List.mem_cons_self)
  refine ⟨_, hstep, hf, (runEnded_live (s := { s with host := s.host.tail }) hf).2 ⟨hb, hbus, ?_⟩, rfl⟩
  exact fun w side hm => hno w side (List.mem_of_mem_tail hm)

/-- Settles O55: a live ended block only uses up a host move that presents nothing, a halted one has no step. -/
theorem endedRunIsFinal : Obligations.EndedRunIsFinal := fun _ =>
  ⟨runEnded_live, fun _ hf => ⟨runEnded_halted hf, step_halted hf⟩, step_of_runEnded⟩

end Sys2Proof.Machine
end

section
/-! Steps as relations: whatever holds between two states that differ in registers only, and is kept by a leaf and by INIT, a
step keeps; and the step's effect on the trace with the lines (10_state.md R31, R32), and on the slots (R26, R28). -/

namespace Sys2Proof.Machine

/-! ### What INIT and a rejection change -/

@[simp] theorem initBody_busy (p : Pins) (s : State) : (initBody p s).busy = s.busy := by
  unfold initBody; split <;> rfl

@[simp] theorem initBody_active (p : Pins) (s : State) : (initBody p s).active = s.active := by
  unfold initBody; split <;> rfl

@[simp] theorem initBody_pending (p : Pins) (s : State) : (initBody p s).pending = s.pending := by
  unfold initBody; split <;> rfl

@[simp] theorem initBody_level (p : Pins) (s : State) : (initBody p s).level = s.level := by
  unfold initBody; split <;> rfl

@[simp] theorem initBody_trace (p : Pins) (s : State) : (initBody p s).trace = s.trace := by
  unfold initBody; split <;> rfl

/-- A slot INIT may take is not present and exists (R130). -/
theorem lowestFree_some {n : Nat} {insts : Vector Slot 15} {h : Fin 15} (hl : lowestFree n insts = some h) :
    insts[h].present = false ∧ h.val < n := by
  simpa [slotFree] using List.find?_some hl

/-- INIT changes no slot, or fills one free slot that exists (R130). -/
theorem initBody_insts (p : Pins) (s : State) :
    (initBody p s).insts = s.insts ∨
      ∃ h : Fin 15, s.insts[h].present = false ∧ h.val < Config.instanceCount ∧
        (initBody p s).insts = s.insts.set h.val (freshSlot p) := by
  unfold initBody
  split
  · exact .inl rfl
  · next h hl =>
    obtain ⟨habsent, hlt⟩ := lowestFree_some hl
    cases hok : Config.drawAlloc s.drawCount with
    | false => exact .inl rfl
    | true => exact .inr ⟨h, habsent, hlt, rfl⟩

/-- An illegal request records a fault (R180, R188). -/
theorem rejectRequest_eq (s : State) : ∃ c, rejectRequest s = raiseFault c s := by
  unfold rejectRequest
  split
  · exact ⟨.reentry, rfl⟩
  · exact ⟨.illegalRequest, rfl⟩

/-! ### Relations that a step keeps -/

section Relation

variable {R : State → State → Prop} {s t : State}
  (hregs : ∀ s t : State, t.trace = s.trace → t.level = s.level → t.insts = s.insts → R s t)
  (htrans : ∀ s t u, R s t → R t u → R s u)
  (hleaf : ∀ u s t, performLeaf u s = .next t → R s t)
  (hinit : ∀ p s, R s (initBody p s))

include hregs htrans hleaf hinit

theorem exec_relation {i : Instr} (h : exec i s = .next t) : R s t := by
  obtain ⟨-, ⟨-, c, rfl⟩ | ⟨-, p, -, rfl⟩ | ⟨-, a, slot, -, -, rfl⟩ | ⟨-, hl⟩⟩ := exec_next h
  · exact hregs _ _ rfl rfl rfl
  · exact hinit p s
  · exact hregs _ _ rfl rfl rfl
  · exact performLeaves_induction (fun s => hregs s s rfl rfl rfl) htrans _ (fun u _ => hleaf u) hl

theorem step_relation (h : step s = .next t) : R s t := by
  have hexec : ∀ {i : Instr} {u : State}, exec i u = .next t →
      u.trace = s.trace → u.level = s.level → u.insts = s.insts → R s t := fun hx htrace hlevel hinsts =>
    htrans _ _ _ (hregs _ _ htrace hlevel hinsts) (exec_relation hregs htrans hleaf hinit hx)
  obtain ⟨-, ⟨w, side, rest, -, -, rfl⟩ | ⟨w, side, rest, i, -, -, hx⟩ | ⟨w, rest, hs, i, -, -, -, hx⟩ |
    ⟨w, i, -, -, hx⟩ | ⟨hs, -, -, rfl⟩ | ⟨hs, -, rfl⟩⟩ := step_next h
  · obtain ⟨c, hc⟩ := rejectRequest_eq { s with host := rest }
    exact hc ▸ hregs _ _ rfl rfl rfl
  · exact hexec hx rfl rfl rfl
  · exact hexec hx rfl rfl rfl
  · exact hexec hx rfl rfl rfl
  · exact hregs _ _ rfl rfl rfl
  · exact hregs _ _ rfl rfl rfl

end Relation

/-! ### The trace and the lines -/

/-- From `s` to `t` some events, every wait of them at least 1 ms, were appended to the trace, and the levels follow them. -/
def Emits (s t : State) : Prop :=
  ∃ es, t.trace = s.trace ++ es ∧ t.level = replayFrom s.level es ∧ ∀ n, Event.delay n ∈ es → 1 ≤ n

theorem emits_of_eq {s t : State} (htrace : t.trace = s.trace) (hlevel : t.level = s.level) : Emits s t :=
  ⟨[], by simp [htrace], hlevel, by simp⟩

theorem Emits.trans {s t u : State} (h : Emits s t) (h' : Emits t u) : Emits s u := by
  obtain ⟨es, htrace, hlevel, hwaits⟩ := h
  obtain ⟨fs, htrace', hlevel', hwaits'⟩ := h'
  refine ⟨es ++ fs, by rw [htrace', htrace, List.append_assoc], by rw [hlevel', hlevel, replayFrom_append], ?_⟩
  intro n hn
  exact (List.mem_append.1 hn).elim (hwaits n) (hwaits' n)

theorem performLeaf_emits {u : Leaf} {s t : State} (h : performLeaf u s = .next t) : Emits s t := by
  cases u with
  | drive ln lvl =>
    obtain ⟨slot, -, rfl⟩ := driveLine_next h
    exact ⟨[.drive (pinOf slot.pins ln) lvl], rfl, rfl, by simp⟩
  | delay n =>
    obtain ⟨hn, rfl⟩ := requestDelay_next h
    have hpos : 1 ≤ n.toNat := Nat.one_le_iff_ne_zero.2 fun h0 => hn (BitVec.eq_of_toNat_eq h0)
    exact ⟨[.delay n.toNat], rfl, rfl, by simpa using hpos⟩
  | curSet row col =>
    obtain ⟨slot, -, rfl⟩ := writeCursor_next h
    exact emits_of_eq rfl rfl
  | raise c =>
    cases h
    exact emits_of_eq rfl rfl

theorem step_emits {s t : State} (h : step s = .next t) : Emits s t :=
  step_relation (fun _ _ htrace hlevel _ => emits_of_eq htrace hlevel) (fun _ _ _ => Emits.trans)
    (fun _ _ _ => performLeaf_emits) (fun p s => emits_of_eq (initBody_trace p s) (initBody_level p s)) h

theorem LineInv.of_emits {s t : State} (hs : LineInv s) (h : Emits s t) : LineInv t := by
  obtain ⟨es, htrace, hlevel, hwaits⟩ := h
  refine ⟨?_, ?_, fun n hn => ?_⟩
  · rw [hlevel]
    exact replayFrom_wf es hs.canonical
  · rw [hlevel, htrace, replayFrom_append, ← hs.replayed]
  · rw [htrace] at hn
    exact (List.mem_append.1 hn).elim (hs.waits n) (hwaits n)

/-- Settles O49: a step appends events with proper waits, and the levels follow exactly these. -/
theorem stepKeepsLineInvariant : Obligations.StepKeepsLineInvariant :=
  fun _ _ hs h => hs.of_emits (step_emits h)

/-- Settles O50: what a step emits is appended. -/
theorem traceIsAppendOnly : Obligations.TraceIsAppendOnly := fun s t h => by
  obtain ⟨es, htrace, -, -⟩ : Emits s t := step_emits h
  exact ⟨es, htrace⟩

/-! ### The slots -/

/-- Every slot present in `s` is present in `t`, with its descriptors. -/
def SlotsPersist (s t : State) : Prop :=
  ∀ h : Fin 15, s.insts[h].present = true → t.insts[h].present = true ∧ t.insts[h].pins = s.insts[h].pins

theorem slotsPersist_of_insts {s t : State} (hi : t.insts = s.insts) : SlotsPersist s t :=
  fun h hp => by rw [hi]; exact ⟨hp, rfl⟩

theorem SlotsPersist.trans {s t u : State} (h : SlotsPersist s t) (h' : SlotsPersist t u) : SlotsPersist s u := fun k hp => by
  obtain ⟨hpt, hpins⟩ := h k hp
  obtain ⟨hpu, hpins'⟩ := h' k hpt
  exact ⟨hpu, hpins'.trans hpins⟩

/-- What slot `k` holds after slot `h` is written. -/
theorem setSlot_getElem (h : Handle) (slot : Slot) (s : State) (k : Fin 15) :
    (setSlot h slot s).insts[k] = if h.toNat = k.val then slot else s.insts[k] := by
  simp [Vector.getElem_setIfInBounds]

/-- The slot a handle names, by its index. -/
theorem getElem_of_instOf {s : State} {h : Handle} {slot : Slot} (hi : instOf s h = some slot) {k : Fin 15}
    (hk : h.toNat = k.val) : s.insts[k] = slot := by
  have hget := (instOf_eq_some.1 hi).1
  rw [hk, Vector.getElem?_eq_getElem k.isLt] at hget
  exact Option.some.inj hget

theorem performLeaf_slotsPersist {u : Leaf} {s t : State} (h : performLeaf u s = .next t) : SlotsPersist s t := by
  cases u with
  | drive ln lvl =>
    obtain ⟨slot, -, rfl⟩ := driveLine_next h
    exact slotsPersist_of_insts rfl
  | delay n =>
    obtain ⟨-, rfl⟩ := requestDelay_next h
    exact slotsPersist_of_insts rfl
  | curSet row col =>
    obtain ⟨slot, hi, rfl⟩ := writeCursor_next h
    intro k hp
    rw [setSlot_getElem]
    split
    · next hk =>
      have hslot := getElem_of_instOf hi hk
      exact ⟨hslot ▸ hp, hslot ▸ rfl⟩
    · exact ⟨hp, rfl⟩
  | raise c =>
    cases h
    exact slotsPersist_of_insts rfl

theorem initBody_slotsPersist (p : Pins) (s : State) : SlotsPersist s (initBody p s) := by
  obtain hi | ⟨h, habsent, -, hi⟩ := initBody_insts p s
  · exact slotsPersist_of_insts hi
  · intro k hp
    have hne : h.val ≠ k.val := fun he => by
      rw [Fin.ext he, hp] at habsent
      cases habsent
    have hk : (initBody p s).insts[k] = s.insts[k] := by simp [hi, Vector.getElem_set_ne, hne]
    rw [hk]
    exact ⟨hp, rfl⟩

/-- Settles O51: CURSET keeps the slot it writes present and its descriptors, INIT fills a slot that was not present, and
nothing else writes one. -/
theorem instancesAndPinsPersist : Obligations.InstancesAndPinsPersist := fun _ _ =>
  step_relation (R := SlotsPersist) (fun _ _ _ _ => slotsPersist_of_insts) (fun _ _ _ => SlotsPersist.trans)
    (fun _ _ _ => performLeaf_slotsPersist) initBody_slotsPersist

end Sys2Proof.Machine
end

section
/-! Handles (10_state.md R25, R26): what a handle names and what names none, and who writes `active`. -/

namespace Sys2Proof.Machine

/-! ### Handles that name nothing -/

/-- R26 as the negation of `instOf_eq_some`. -/
theorem instOf_eq_none {s : State} {h : Handle} :
    instOf s h = none ↔
      Config.instanceCount ≤ h.toNat ∨ ∃ slot, s.insts[h.toNat]? = some slot ∧ slot.present = false := by
  rw [Option.eq_none_iff_forall_ne_some]
  constructor
  · intro hnone
    rcases Nat.lt_or_ge h.toNat Config.instanceCount with hlt | hge
    · have h15 : h.toNat < 15 := Nat.lt_of_lt_of_le hlt Config.instanceCount_le
      refine .inr ⟨s.insts[h.toNat], Vector.getElem?_eq_getElem h15, Bool.eq_false_iff.2 fun hp => ?_⟩
      exact hnone _ (instOf_eq_some.2 ⟨Vector.getElem?_eq_getElem h15, hp, hlt⟩)
    · exact .inl hge
  · rintro hor slot hi
    obtain ⟨hget, hp, hlt⟩ := instOf_eq_some.1 hi
    obtain hge | ⟨slot', hget', hp'⟩ := hor
    · exact Nat.not_lt.2 hge hlt
    · rw [hget] at hget'
      cases hget'
      rw [hp] at hp'
      cases hp'

/-- NONE names no slot (R14, R26): there are at most 15. -/
@[simp] theorem instOf_noneHandle (s : State) : instOf s 0xF#4 = none :=
  instOf_eq_none.2 (.inl Config.instanceCount_le)

/-- Settles O47: a request is its acceptance, which on a ready block fails on the handle. -/
theorem absentHandlesAreRejected : Obligations.AbsentHandlesAreRejected := by
  refine ⟨fun _ _ => instOf_eq_none, instOf_noneHandle, fun s i h hf hb hh hi => ?_⟩
  rw [exec_request hh, acceptRequest_absent _ hf hb hi]
  rfl

/-! ### Reset -/

theorem reset_insts (h : Fin 15) : State.reset.insts[h] = Slot.reset := by
  simp [State.reset]

theorem instOf_reset (h : Handle) : instOf State.reset h = none := by
  rw [instOf_eq_none]
  rcases Nat.lt_or_ge h.toNat 15 with hlt | hge
  · exact .inr ⟨Slot.reset, by simp [State.reset, hlt], rfl⟩
  · exact .inl (Config.instanceCount_le.trans hge)

/-- Settles O11: the registers are read off the reset state, and no slot of it is present for a handle to name. -/
theorem resetValues : Obligations.ResetValues :=
  ⟨rfl, rfl, rfl, rfl, rfl, fun h => by rw [reset_insts]; rfl, instOf_reset, levelOf_nil, rfl⟩

/-! ### What is read at the host port and as a bus byte -/

theorem eq_of_withNoSide_ok {side : Side} {i j : Instr} (h : withNoSide side j = .ok i) : i = j := by
  cases side <;> cases h
  rfl

theorem eq_of_ifFits_ok {n : Nat} {w p m : BitVec n} {r : Except DecodeError Instr} {i : Instr}
    (h : ifFits w p m r = .ok i) : r = .ok i := by
  unfold ifFits at h
  split at h
  · exact h
  · cases h

theorem isRequest_of_requestHandle {i : Instr} {h : Handle} (hh : requestHandle i = some h) : isRequest i = true := by
  cases i <;> cases hh <;> rfl

/-- What is read at the host port is a row of the host port (R71). -/
theorem isRequest_of_decodeRequest {w : ReqWord} {side : Side} {i : Instr} (h : decodeRequest w side = .ok i) :
    isRequest i = true := by
  unfold decodeRequest at h
  split at h
  case h_1 => cases side <;> cases eq_of_ifFits_ok h; rfl
  case h_7 => cases side <;> cases eq_of_ifFits_ok h; rfl
  case h_8 => cases h
  all_goals cases eq_of_withNoSide_ok (eq_of_ifFits_ok h); rfl

/-- What is read as a bus byte is no request, and sends one byte (R85, R95). -/
theorem performedBy_of_decodeBus {w : BusWord} {i : Instr} (h : decodeBus w = .ok i) :
    isRequest i = false ∧ ∃ rs b, performedBy i = sendByteLeaves rs b := by
  unfold decodeBus at h
  split_ifs at h <;> cases h <;> exact ⟨rfl, _, _, rfl⟩

/-! ### Who writes `active` -/

theorem performLeaves_active {us : List Leaf} {s t : State} (h : performLeaves us s = .next t) : t.active = s.active :=
  performLeaves_induction (R := fun s t => t.active = s.active) (fun _ => rfl) (fun _ _ _ h h' => h'.trans h) us
    (fun _ _ _ _ hu => by obtain ⟨-, ha, -⟩ := performLeaf_keeps hu; exact ha) h

/-- An instruction that changes `active` is a request accepted on that handle. -/
theorem exec_changes_active {i : Instr} {s t : State} (h : exec i s = .next t) (hne : t.active ≠ s.active) :
    s.busy = false ∧ requestHandle i = some t.active ∧ t.busy = true ∧ t.trace = s.trace ∧
      (instOf t t.active).isSome = true := by
  obtain ⟨-, ⟨-, c, rfl⟩ | ⟨-, p, -, rfl⟩ | ⟨hb, a, slot, ha, hi, rfl⟩ | ⟨-, hl⟩⟩ := exec_next h
  · exact absurd rfl hne
  · exact absurd (initBody_active p s) hne
  · exact ⟨hb, ha, rfl, rfl, Option.isSome_iff_exists.2 ⟨slot, hi⟩⟩
  · exact absurd (performLeaves_active hl) hne

/-- Settles O54: an instruction that writes `active` is accepted by an idle block, so it is none of `pending`; it is a request,
so it is no bus byte; it was presented. -/
theorem onlyAcceptanceWritesActive : Obligations.OnlyAcceptanceWritesActive := by
  intro s t h hne
  obtain ⟨-, ⟨w, side, rest, -, -, rfl⟩ | ⟨w, side, rest, i, hhost, hd, hx⟩ | ⟨w, rest, hs, i, hb, -, -, hx⟩ |
    ⟨w, i, -, hd, hx⟩ | ⟨hs, -, -, rfl⟩ | ⟨hs, -, rfl⟩⟩ := step_next h
  · obtain ⟨c, hc⟩ := rejectRequest_eq { s with host := rest }
    exact absurd (congrArg State.active hc) hne
  · obtain ⟨hidle, ha, hbusy, htrace, hi⟩ := exec_changes_active hx hne
    exact ⟨hidle, hbusy, hi, htrace, w, side, rest, i, hhost, hd, ha⟩
  · obtain ⟨hidle, -⟩ := exec_changes_active hx hne
    exact absurd (hb.symm.trans hidle) Bool.noConfusion
  · obtain ⟨-, ha, -⟩ := exec_changes_active hx hne
    obtain ⟨hr, -⟩ := performedBy_of_decodeBus hd
    exact absurd (hr.symm.trans (isRequest_of_requestHandle ha)) Bool.noConfusion
  · exact absurd rfl hne
  · exact absurd rfl hne

end Sys2Proof.Machine
end

section
/-! Enable after an operation (10_state.md R36): the last drive of every byte is of E, high. -/

namespace Sys2Proof.Machine

theorem levelOf_e_nibbleEvents (p : Pins) (lv : List (Pin × Level)) (v : Nibble) :
    levelOf (replayFrom lv (nibbleEvents p v)) p.e = .H := by
  simp [nibbleEvents, pulseEvents, replayFrom, levelsAfter, seenOf]

/-- A byte ends with its low nibble's pulse, so with E high, whatever it drove before. -/
theorem levelOf_e_byteEvents (p : Pins) (lv : List (Pin × Level)) (rs : Level) (b : Byte) :
    levelOf (replayFrom lv (byteEvents p rs b)) p.e = .H := by
  rw [byteEvents, replayFrom_append]
  exact levelOf_e_nibbleEvents p _ _

/-- A wait drives no line (R102). -/
theorem replayFrom_delay (lv : List (Pin × Level)) (n : Nat) : replayFrom lv [.delay n] = lv := rfl

/-- A body ends with E high too: after its byte it waits and writes the cursor. -/
theorem levelOf_e_body (p : Pins) (lv : List (Pin × Level)) (rs : Level) (b r c : Byte) :
    levelOf (replayFrom lv (eventsOf p (sendByteLeaves rs b ++ [.delay Config.tCmd, curSetLeaf r c]))) p.e = .H := by
  rw [eventsOf_body, replayFrom_append, replayFrom_delay]
  exact levelOf_e_byteEvents p lv rs b

/-- PutStr leaves E high where it is high. -/
theorem levelOf_e_putStr_of_high (p : Pins) (dw : Nat) (str : List Byte) (r c : Byte) (lv : List (Pin × Level))
    (h : levelOf lv p.e = .H) : levelOf (replayFrom lv (eventsOf p (putStrLeaves dw r c str))) p.e = .H := by
  induction str generalizing r c lv with
  | nil => exact h
  | cons b str ih =>
    unfold putStrLeaves
    split
    · exact h
    · rw [eventsOf_append, replayFrom_append]
      exact ih _ _ _ (levelOf_e_body p lv .H b _ _)

/-- Where PutStr sends a character, it leaves E high. -/
theorem levelOf_e_putStr (p : Pins) (dw : Nat) (r c : Byte) (lv : List (Pin × Level)) {str : List Byte}
    (h : beforeZero str ≠ []) : levelOf (replayFrom lv (eventsOf p (putStrLeaves dw r c str))) p.e = .H := by
  cases str with
  | nil => exact absurd rfl h
  | cons b str =>
    have hb : b ≠ 0#8 := fun h0 => h (by simp [beforeZero, h0])
    rw [putStrLeaves, if_neg hb, eventsOf_append, replayFrom_append]
    exact levelOf_e_putStr_of_high p dw str _ _ _ (levelOf_e_body p lv .H b _ _)

/-- Begin's last body is Home's, and the wait after it drives nothing. -/
theorem levelOf_e_begin (p : Pins) (lv : List (Pin × Level)) :
    levelOf (replayFrom lv (eventsOf p beginLeaves)) p.e = .H := by
  rw [beginLeaves, eventsOf_append, eventsOf_append _ _ homeLeaves, replayFrom_append, replayFrom_append]
  have hwait : eventsOf p [.delay Config.tFinal] = [.delay 500] := rfl
  rw [hwait, replayFrom_delay]
  exact levelOf_e_body p _ .L Config.cmdHome _ _

/-- Settles O42: each operation ends with a body, or with a body and a wait. -/
theorem enableLeftHigh : Obligations.EnableLeftHigh := by
  intro p lv dw r c a b str hstr us hus
  simp only [List.mem_cons, List.not_mem_nil, or_false] at hus
  obtain rfl | rfl | rfl | rfl | rfl | rfl := hus
  · exact levelOf_e_begin p lv
  · exact levelOf_e_body p lv .L _ _ _
  · exact levelOf_e_body p lv .L _ _ _
  · exact levelOf_e_body p lv .L _ _ _
  · exact levelOf_e_body p lv .H _ _ _
  · exact levelOf_e_putStr p dw r c lv hstr

end Sys2Proof.Machine
end

section
/-! The leaves the block generates (10_state.md R24): the words of an expansion are exactly such leaves, with every cursor
they write on the display (43_cursor_output.md R170). -/

namespace Sys2Proof.Machine

/-! ### Generated leaves -/

/-- A leaf the block generates: what `leafOk` says of its word. -/
def leafGenerated : Leaf → Bool
  | .drive ln lvl => !(ln == .RW && lvl == .H)
  | .delay n => n == 1#12 || n == 5#12 || n == 10#12 || n == 500#12
  | .curSet row col => (Instr.curSet row col).wellFormed
  | .raise c => c == .stringUnterminated

/-- `leafOk` reads a word as a leaf the block generates. -/
theorem leafOk_iff {w : UopWord} :
    leafOk w = true ↔ ∃ u, decodeUop w = .ok (leafInstr u) ∧ leafGenerated u = true := by
  constructor
  · intro h
    unfold leafOk at h
    split at h
    next ln lvl hd => exact ⟨.drive ln lvl, hd, h⟩
    next n hd => exact ⟨.delay n, hd, h⟩
    next row col hd => exact ⟨.curSet row col, hd, h⟩
    next c hd => exact ⟨.raise c, hd, h⟩
    next => cases h
  · rintro ⟨u, hd, hu⟩
    cases u <;> simp only [leafInstr] at hd <;> simp only [leafOk, hd] <;> exact hu

theorem leafOk_leafWord {u : Leaf} (hu : leafGenerated u = true) : leafOk (leafWord u) = true := by
  have hne : u ≠ .delay 0#12 := by
    rintro rfl
    cases hu
  exact leafOk_iff.2 ⟨u, decodeUop_leafWord u hne, hu⟩

theorem isRequest_leafInstr (u : Leaf) : isRequest (leafInstr u) = false := by
  cases u <;> rfl

theorem performedBy_leafInstr (u : Leaf) : performedBy (leafInstr u) = [u] := by
  cases u <;> rfl

/-! ### The cursor stays on the display -/

theorem cursorOk_iff {dw : Nat} {r c : Byte} : cursorOk dw r c = true ↔ r.toNat < 2 ∧ c.toNat < dw := by
  simp [cursorOk, Config.displayRows]

theorem cursorOk_home : cursorOk Config.displayWidth 0#8 0#8 = true :=
  cursorOk_iff.2 ⟨Nat.zero_lt_two, Config.displayWidth_pos⟩

/-- Adding one to a byte adds at most one: it may wrap. -/
theorem toNat_add_one_le (b : Byte) : (b + 1#8).toNat ≤ b.toNat + 1 := by
  rw [BitVec.toNat_add]
  exact Nat.mod_le _ _

/-- R170: the advance of R162 does not leave the display. -/
theorem cursorOk_advance {dw : Nat} {r c : Byte} (h : cursorOk dw r c = true) :
    cursorOk dw (advance dw r c).1 (advance dw r c).2 = true := by
  obtain ⟨hr, hc⟩ := cursorOk_iff.1 h
  have hr1 := toNat_add_one_le r
  have hc1 := toNat_add_one_le c
  rw [cursorOk_iff]
  unfold advance
  split
  next => exact ⟨Nat.zero_lt_two, Nat.zero_lt_of_lt hc⟩
  next hlast =>
    split
    next hcol =>
      have hrow : r.toNat ≠ 1 := fun h1 => hlast ⟨hcol, h1⟩
      have hnext : (r + 1#8).toNat < 2 := by omega
      exact ⟨hnext, Nat.zero_lt_of_lt hc⟩
    next hcol =>
      have hnext : (c + 1#8).toNat < dw := by omega
      exact ⟨hr, hnext⟩

/-- R155, R156: the reduced operands of SetCursor are on the display. -/
theorem cursorOk_wrap (row column : Byte) :
    cursorOk Config.displayWidth (BitVec.ofNat 8 (wrapRow row)) (BitVec.ofNat 8 (wrapColumn Config.displayWidth column))
      = true := by
  rw [cursorOk_iff, BitVec.toNat_ofNat, BitVec.toNat_ofNat]
  exact ⟨(Nat.mod_le _ _).trans_lt (Nat.mod_lt _ Nat.zero_lt_two),
    (Nat.mod_le _ _).trans_lt (Nat.mod_lt _ Config.displayWidth_pos)⟩

theorem leafGenerated_curSet {row : BitVec 4} {col : Byte} :
    leafGenerated (.curSet row col) = true ↔ row.toNat < 2 ∧ col.toNat < Config.displayWidth := by
  simp [leafGenerated, Instr.wellFormed, Instr.wellFormedAt, Config.displayRows]

/-- A cursor on the display fits the CURSET leaf's fields. -/
theorem leafGenerated_curSetLeaf {r c : Byte} (h : cursorOk Config.displayWidth r c = true) :
    leafGenerated (curSetLeaf r c) = true := by
  obtain ⟨hr, hc⟩ := cursorOk_iff.1 h
  rw [curSetLeaf, leafGenerated_curSet, BitVec.toNat_setWidth]
  exact ⟨(Nat.mod_le _ _).trans_lt hr, hc⟩

/-! ### Every expansion is of generated leaves -/

theorem leafGenerated_nibble (v : Nibble) : ∀ u ∈ writeNibbleLeaves v, leafGenerated u = true := by
  simp [writeNibbleLeaves, enablePulseLeaves, leafGenerated, Config.tPulse]

/-- A byte drives RW low and nothing else of RW (R122). -/
theorem leafGenerated_sendByte (rs : Level) (b : Byte) : ∀ u ∈ sendByteLeaves rs b, leafGenerated u = true := by
  simp only [sendByteLeaves, List.forall_mem_append]
  exact ⟨⟨by simp [leafGenerated], leafGenerated_nibble _⟩, leafGenerated_nibble _⟩

theorem leafGenerated_body (rs : Level) (b : Byte) {r c : Byte} (h : cursorOk Config.displayWidth r c = true) :
    ∀ u ∈ sendByteLeaves rs b ++ [.delay Config.tCmd, curSetLeaf r c], leafGenerated u = true := by
  simp only [List.forall_mem_append, List.forall_mem_cons]
  exact ⟨leafGenerated_sendByte rs b, rfl, leafGenerated_curSetLeaf h, List.forall_mem_nil _⟩

theorem leafGenerated_config (b : Byte) : ∀ u ∈ configLeaves b, leafGenerated u = true := by
  rw [configLeaves, List.forall_mem_append]
  exact ⟨leafGenerated_sendByte .L b, by simp [leafGenerated, Config.tCfg]⟩

theorem leafGenerated_begin : ∀ u ∈ beginLeaves, leafGenerated u = true := by
  simp only [beginLeaves, List.forall_mem_append]
  refine ⟨⟨⟨⟨⟨⟨?_, leafGenerated_config _⟩, leafGenerated_config _⟩, leafGenerated_config _⟩,
    leafGenerated_body .L _ cursorOk_home⟩, leafGenerated_body .L _ cursorOk_home⟩, ?_⟩
  · simp [beginStep1, leafGenerated, Config.tPower]
  · simp [leafGenerated, Config.tFinal]

/-- PutStr's bodies each start at the cursor the one before left (R168), which is on the display. -/
theorem leafGenerated_putStr (str : List Byte) {r c : Byte} (h : cursorOk Config.displayWidth r c = true) :
    ∀ u ∈ putStrLeaves Config.displayWidth r c str, leafGenerated u = true := by
  induction str generalizing r c with
  | nil => simp [putStrLeaves, leafGenerated]
  | cons b str ih =>
    unfold putStrLeaves
    split
    · exact List.forall_mem_nil _
    · rw [List.forall_mem_append]
      exact ⟨leafGenerated_body .H b (cursorOk_advance h), ih (cursorOk_advance h)⟩

/-- R24, R170: what a request puts in `pending`, from a slot with its cursor on the display. -/
theorem leafGenerated_expansionOf {i : Instr} {h : Handle} (hh : requestHandle i = some h) {slot : Slot}
    (hc : cursorOk Config.displayWidth slot.row slot.col = true) :
    ∀ u ∈ expansionOf i slot, leafGenerated u = true := by
  cases i <;> cases hh
  case beginInit => exact leafGenerated_begin
  case clearScreen => exact leafGenerated_body .L _ cursorOk_home
  case home => exact leafGenerated_body .L _ cursorOk_home
  case setCursor row column => exact leafGenerated_body .L _ (cursorOk_wrap row column)
  case putChar b => exact leafGenerated_body .H b (cursorOk_advance hc)
  case putStr str => exact leafGenerated_putStr str hc

end Sys2Proof.Machine
end

section
/-! The invariant of the block (10_state.md R24, R26, R29, R30; 60_exceptions.md R182), kept by each part of a step. -/

namespace Sys2Proof.Machine

theorem slotOk_iff {h : Fin 15} {slot : Slot} :
    slotOk h slot = true ↔
      (slot.present = true → h.val < Config.instanceCount ∧ cursorOk Config.displayWidth slot.row slot.col = true) := by
  cases hp : slot.present <;> simp [slotOk, hp]

theorem LineInv.reset : LineInv State.reset := ⟨rfl, rfl, fun _ hn => absurd hn List.not_mem_nil⟩

theorem BlockInv.reset : BlockInv State.reset where
  pending_ok := List.forall_mem_nil _
  idle_empty _ := rfl
  busy_active hb := absurd hb Bool.noConfusion
  slots_ok h := by
    rw [reset_insts]
    rfl

/-- Settles O13: `pending`, the trace and the levels are empty, and no slot is present. -/
theorem resetMeetsInvariants : Obligations.ResetMeetsInvariants := ⟨BlockInv.reset, LineInv.reset⟩

namespace BlockInv

variable {s t : State}

/-- Only these four registers matter. -/
theorem of_eq (hs : BlockInv s) (hbusy : t.busy = s.busy) (hactive : t.active = s.active)
    (hpending : t.pending = s.pending) (hinsts : t.insts = s.insts) : BlockInv t where
  pending_ok := hpending ▸ hs.pending_ok
  idle_empty hb := hpending ▸ hs.idle_empty (hbusy ▸ hb)
  busy_active hb := by
    rw [instOf_congr hinsts, hactive]
    exact hs.busy_active (hbusy ▸ hb)
  slots_ok := hinsts ▸ hs.slots_ok

/-- What a handle names has its cursor on the display. -/
theorem cursorOk_of_instOf (hs : BlockInv s) {h : Handle} {slot : Slot} (hi : instOf s h = some slot) :
    cursorOk Config.displayWidth slot.row slot.col = true := by
  obtain ⟨-, hp, hlt⟩ := instOf_eq_some.1 hi
  have hslot := hs.slots_ok ⟨h.toNat, hlt.trans_le Config.instanceCount_le⟩
  rw [getElem_of_instOf hi rfl] at hslot
  exact (slotOk_iff.1 hslot hp).2

/-- CURSET on the display. -/
theorem of_setSlot (hs : BlockInv s) {slot slot' : Slot} (hi : instOf s s.active = some slot)
    (hp : slot'.present = true) (hc : cursorOk Config.displayWidth slot'.row slot'.col = true) :
    BlockInv (setSlot s.active slot' s) where
  pending_ok := hs.pending_ok
  idle_empty := hs.idle_empty
  busy_active _ := Option.isSome_iff_exists.2 ⟨slot', instOf_setSlot hi hp⟩
  slots_ok k := by
    obtain ⟨-, -, hlt⟩ := instOf_eq_some.1 hi
    rw [setSlot_getElem]
    split
    · next hk => exact slotOk_iff.2 fun _ => ⟨hk ▸ hlt, hc⟩
    · exact hs.slots_ok k

/-- A leaf the block generates. -/
theorem of_performLeaf (hs : BlockInv s) {u : Leaf} (hu : leafGenerated u = true) (h : performLeaf u s = .next t) :
    BlockInv t := by
  cases u with
  | drive ln lvl =>
    obtain ⟨slot, -, rfl⟩ := driveLine_next h
    exact hs.of_eq rfl rfl rfl rfl
  | delay n =>
    obtain ⟨-, rfl⟩ := requestDelay_next h
    exact hs.of_eq rfl rfl rfl rfl
  | curSet row col =>
    obtain ⟨slot, hi, rfl⟩ := writeCursor_next h
    obtain ⟨-, hp, -⟩ := instOf_eq_some.1 hi
    obtain ⟨hr, hc⟩ := leafGenerated_curSet.1 hu
    refine hs.of_setSlot hi hp (cursorOk_iff.2 ⟨?_, hc⟩)
    rw [BitVec.toNat_setWidth]
    exact (Nat.mod_le _ _).trans_lt hr
  | raise c =>
    cases h
    exact hs.of_eq rfl rfl rfl rfl

theorem of_performLeaves (hs : BlockInv s) {us : List Leaf} (hus : ∀ u ∈ us, leafGenerated u = true)
    (h : performLeaves us s = .next t) : BlockInv t :=
  performLeaves_induction (R := fun s t => BlockInv s → BlockInv t) (fun _ hs => hs)
    (fun _ _ _ h h' hs => h' (h hs)) us (fun u hu _ _ h hs => hs.of_performLeaf (hus u hu) h) h hs

/-- INIT on an idle block: the slot it may fill exists, and its cursor is at (0,0) (R130). -/
theorem of_initBody (hs : BlockInv s) (hb : s.busy = false) (p : Pins) : BlockInv (initBody p s) := by
  obtain hi | ⟨h, -, hlt, hi⟩ := initBody_insts p s
  · exact hs.of_eq (initBody_busy p s) (initBody_active p s) (initBody_pending p s) hi
  · refine ⟨?_, fun _ => ?_, fun hbusy => ?_, fun k => ?_⟩
    · simpa using hs.pending_ok
    · simpa using hs.idle_empty hb
    · rw [initBody_busy, hb] at hbusy
      cases hbusy
    · have hk : (initBody p s).insts[k] = if h.val = k.val then freshSlot p else s.insts[k] := by
        simp [hi, Vector.getElem_set]
      rw [hk]
      split
      · next he => exact slotOk_iff.2 fun _ => ⟨he ▸ hlt, cursorOk_home⟩
      · exact hs.slots_ok k

/-- Acceptance (R180): the whole expansion is in `pending`, and `active` is the handle it named. -/
theorem of_accept (hs : BlockInv s) {i : Instr} {a : Handle} {slot : Slot} (ha : requestHandle i = some a)
    (hi : instOf s a = some slot) :
    BlockInv { s with busy := true, active := a, pending := (expansionOf i slot).map leafWord } where
  pending_ok w hw := by
    obtain ⟨u, hu, rfl⟩ := List.mem_map.1 hw
    exact leafOk_leafWord (leafGenerated_expansionOf ha (hs.cursorOk_of_instOf hi) u hu)
  idle_empty hb := absurd hb Bool.noConfusion
  busy_active _ := Option.isSome_iff_exists.2 ⟨slot, hi⟩
  slots_ok := hs.slots_ok

theorem of_exec_request (hs : BlockInv s) {i : Instr} (hr : isRequest i = true) (h : exec i s = .next t) :
    BlockInv t := by
  obtain ⟨-, ⟨-, c, rfl⟩ | ⟨hb, p, -, rfl⟩ | ⟨-, a, slot, ha, hi, rfl⟩ | ⟨hr', -⟩⟩ := exec_next h
  · exact hs.of_eq rfl rfl rfl rfl
  · exact hs.of_initBody hb p
  · exact hs.of_accept ha hi
  · exact absurd (hr.symm.trans hr') Bool.noConfusion

theorem of_exec_performs (hs : BlockInv s) {i : Instr} (hr : isRequest i = false)
    (hgen : ∀ u ∈ performedBy i, leafGenerated u = true) (h : exec i s = .next t) : BlockInv t := by
  rw [exec_performs hr] at h
  obtain ⟨-, hl⟩ := unlessHalted_next h
  exact hs.of_performLeaves hgen hl

/-- A busy block whose next word has been taken from `pending`. -/
theorem of_pop (hs : BlockInv s) (hb : s.busy = true) {w : UopWord} {rest : List UopWord} (hp : s.pending = w :: rest)
    (moves : List HostMove) : BlockInv { s with host := moves, pending := rest } where
  pending_ok v hv := hs.pending_ok v (hp ▸ List.mem_cons_of_mem w hv)
  idle_empty hidle := absurd (hb.symm.trans hidle) Bool.noConfusion
  busy_active := hs.busy_active
  slots_ok := hs.slots_ok

end BlockInv

/-- Settles O48: a request is rejected or accepted; a word of `pending` is a leaf the block generates; a bus byte only drives
and waits; a completion finds `pending` empty. -/
theorem stepKeepsInvariant : Obligations.StepKeepsInvariant := by
  intro s t hs h
  obtain ⟨-, ⟨w, side, rest, -, -, rfl⟩ | ⟨w, side, rest, i, -, hd, hx⟩ | ⟨w, rest, moves, i, hb, hp, hd, hx⟩ |
    ⟨w, i, -, hd, hx⟩ | ⟨moves, -, hp, rfl⟩ | ⟨moves, -, rfl⟩⟩ := step_next h
  · obtain ⟨c, hc⟩ := rejectRequest_eq { s with host := rest }
    exact hc ▸ hs.of_eq rfl rfl rfl rfl
  · have hs' : BlockInv { s with host := rest } := hs.of_eq rfl rfl rfl rfl
    exact hs'.of_exec_request (isRequest_of_decodeRequest hd) hx
  · obtain ⟨u, hu, hgen⟩ := leafOk_iff.1 (hs.pending_ok w (hp ▸ List.mem_cons_self))
    cases hd.symm.trans hu
    refine (hs.of_pop hb hp moves).of_exec_performs (isRequest_leafInstr u) ?_ hx
    rw [performedBy_leafInstr]
    exact List.forall_mem_singleton.2 hgen
  · obtain ⟨hr, rs, b, hperf⟩ := performedBy_of_decodeBus hd
    have hs' : BlockInv { s with busIn := none } := hs.of_eq rfl rfl rfl rfl
    exact hs'.of_exec_performs hr (hperf ▸ leafGenerated_sendByte rs b) hx
  · exact ⟨hs.pending_ok, fun _ => hp, fun hb => absurd hb Bool.noConfusion, hs.slots_ok⟩
  · exact hs.of_eq rfl rfl rfl rfl

end Sys2Proof.Machine
end

section
/-! Elapsed time (20_memory.md R60; 70_reset_and_hazards.md R225): what each expansion requests, and with it the sums that the
Timing Provider's draws can have. -/

namespace Sys2Proof.Machine

/-! ### What each expansion requests -/

@[simp] theorem requestedMs_byteEvents (p : Pins) (rs : Level) (b : Byte) : requestedMs (byteEvents p rs b) = 4 := rfl

@[simp] theorem delayEvents_byteEvents (p : Pins) (rs : Level) (b : Byte) : delayEvents (byteEvents p rs b) = 4 := rfl

theorem requestedMs_body (p : Pins) (rs : Level) (b r c : Byte) :
    requestedMs (eventsOf p (sendByteLeaves rs b ++ [.delay Config.tCmd, curSetLeaf r c])) = 5 := by
  rw [eventsOf_body]
  simp [requestedMs]

theorem delayEvents_body (p : Pins) (rs : Level) (b r c : Byte) :
    delayEvents (eventsOf p (sendByteLeaves rs b ++ [.delay Config.tCmd, curSetLeaf r c])) = 5 := by
  rw [eventsOf_body]
  simp [delayEvents]

theorem eventsOf_config (p : Pins) (b : Byte) : eventsOf p (configLeaves b) = byteEvents p .L b ++ [.delay 5] := by
  rw [configLeaves, eventsOf_append, sendCommandLeaves, eventsOf_sendByte]
  rfl

/-- Begin's events, part by part: step 1, three configuration bytes, the ClearScreen and Home bodies, the last wait. -/
theorem eventsOf_begin (p : Pins) : eventsOf p beginLeaves = beginEvents p := by
  have hclear : eventsOf p clearScreenLeaves = byteEvents p .L 0x01#8 ++ [.delay 1] := eventsOf_body p .L _ _ _
  have hhome : eventsOf p homeLeaves = byteEvents p .L 0x02#8 ++ [.delay 1] := eventsOf_body p .L _ _ _
  simp only [beginLeaves, eventsOf_append, eventsOf_config, hclear, hhome, beginEvents, List.append_assoc]
  rfl

theorem requestedMs_beginEvents (p : Pins) : requestedMs (beginEvents p) = 547 := by
  simp [beginEvents, requestedMs]

theorem delayEvents_beginEvents (p : Pins) : delayEvents (beginEvents p) = 27 := by
  simp [beginEvents, delayEvents]

/-- PutStr requests one body's time for each character, whether a zero ends the sequence or its end does. -/
theorem requestedMs_putStr (p : Pins) (dw : Nat) (r c : Byte) (str : List Byte) :
    requestedMs (eventsOf p (putStrLeaves dw r c str)) = 5 * (beforeZero str).length := by
  induction str generalizing r c with
  | nil => rfl
  | cons b str ih =>
    unfold putStrLeaves
    split
    case isTrue hb => simp [beforeZero, hb, eventsOf, requestedMs]
    case isFalse hb =>
      have hbefore : beforeZero (b :: str) = b :: beforeZero str := by simp [beforeZero, hb]
      rw [eventsOf_append, requestedMs_append, ih, hbefore, putCharLeaves, sendDataLeaves, requestedMs_body,
        List.length_cons]
      omega

theorem beforeZero_eq_self {str : List Byte} (h : 0#8 ∉ str) : beforeZero str = str :=
  List.takeWhile_eq_self_iff.2 fun _ hb => bne_iff_ne.2 fun h0 => h (h0 ▸ hb)

/-! ### The sums the draws can have -/

/-- R60: where something is delayed, the draws' sums are exactly the numbers from the requested milliseconds up. -/
theorem elapsed_sums {es : List Event} {ms n : Nat} (hms : requestedMs es = ms) (hd : delayEvents es = n + 1) :
    (∀ ds : List Nat, elapsedFits es ds = true → ms ≤ ds.sum) ∧
    (∀ total : Nat, ms ≤ total → ∃ ds : List Nat, elapsedFits es ds = true ∧ ds.sum = total) :=
  hms ▸ ⟨fun _ => requestedMs_le_sum, fun _ => exists_draws (hd ▸ Nat.succ_pos n)⟩

/-- Settles O44: each expansion requests its row's milliseconds, in at least one delay. -/
theorem elapsedAtLeastRequested : Obligations.ElapsedAtLeastRequested := by
  intro p dw r c row column b v str
  refine ⟨fun us ms hrow => ?_, fun _ ds hds => ?_, fun hz ds hds => ?_⟩
  · simp only [List.mem_cons, Prod.mk.injEq, List.not_mem_nil, or_false] at hrow
    obtain ⟨rfl, rfl⟩ | ⟨rfl, rfl⟩ | ⟨rfl, rfl⟩ | ⟨rfl, rfl⟩ | ⟨rfl, rfl⟩ | ⟨rfl, rfl⟩ | ⟨rfl, rfl⟩ | ⟨rfl, rfl⟩ |
      ⟨rfl, rfl⟩ := hrow
    · exact elapsed_sums (es := pulseEvents p) rfl rfl
    · exact elapsed_sums (es := nibbleEvents p v) rfl rfl
    · exact elapsed_sums (requestedMs_byteEvents p .L b) (delayEvents_byteEvents p .L b)
    · exact elapsed_sums (requestedMs_byteEvents p .H b) (delayEvents_byteEvents p .H b)
    · exact eventsOf_begin p ▸ elapsed_sums (requestedMs_beginEvents p) (delayEvents_beginEvents p)
    · exact elapsed_sums (requestedMs_body p .L _ _ _) (delayEvents_body p .L _ _ _)
    · exact elapsed_sums (requestedMs_body p .L _ _ _) (delayEvents_body p .L _ _ _)
    · exact elapsed_sums (requestedMs_body p .L _ _ _) (delayEvents_body p .L _ _ _)
    · exact elapsed_sums (requestedMs_body p .H _ _ _) (delayEvents_body p .H _ _ _)
  · exact requestedMs_putStr p dw r c str ▸ requestedMs_le_sum hds
  · have hsum := requestedMs_putStr p dw r c str ▸ requestedMs_le_sum hds
    rwa [beforeZero_eq_self hz] at hsum

end Sys2Proof.Machine
end

section
/-! Words and their rows (30_encoding.md R71, R81, R95): a word that fits its row and holds an instruction's operands in the
row's fields is the word the encoder writes. -/

namespace Sys2Proof

/-! ### A row's test and its fields fix a word -/

theorem fits_iff {n : Nat} {w p m : BitVec n} : fits w p m = true ↔ w &&& m = p := by
  simp [fits]

theorem fits_bit {n : Nat} {w p m : BitVec n} (h : fits w p m = true) {i : Nat} (hm : m.getLsbD i = true) :
    w.getLsbD i = p.getLsbD i := by
  rw [← fits_iff.1 h, BitVec.getLsbD_and, hm, Bool.and_true]

theorem getLsbD_eq_of_field {n : Nat} {w v : BitVec n} {start len i : Nat}
    (h : w.extractLsb' start len = v.extractLsb' start len) (hlo : start ≤ i) (hhi : i < start + len) :
    w.getLsbD i = v.getLsbD i := by
  have hbit := congrArg (BitVec.getLsbD · (i - start)) h
  have hlen : i - start < len := by omega
  simpa [BitVec.getLsbD_extractLsb', hlen, Nat.add_sub_cancel' hlo] using hbit

/-- Two words of one row with the same fields are equal, where the mask and the fields `(start, length)` cover every bit: no
bit is ignored. -/
theorem eq_of_fits {n : Nat} {w v p m : BitVec n} (fields : List (Nat × Nat)) (hw : fits w p m = true)
    (hv : fits v p m = true)
    (hcover : ∀ i < n, m.getLsbD i = true ∨ ∃ f ∈ fields, f.1 ≤ i ∧ i < f.1 + f.2)
    (hfields : fields.Forall fun f => w.extractLsb' f.1 f.2 = v.extractLsb' f.1 f.2) : w = v := by
  apply BitVec.eq_of_getLsbD_eq
  intro i hi
  obtain hm | ⟨f, hf, hlo, hhi⟩ := hcover i hi
  · rw [fits_bit hw hm, fits_bit hv hm]
  · exact getLsbD_eq_of_field (List.forall_iff_forall_mem.1 hfields f hf) hlo hhi

/-- A row without fields has one word. -/
theorem eq_of_fits_allOnes {n : Nat} {w p : BitVec n} (h : fits w p (BitVec.allOnes n) = true) : w = p :=
  BitVec.and_allOnes.symm.trans (fits_iff.1 h)

/-! ### Requests (R71) -/

theorem requestWord_of_fits_init {w : ReqWord} (h : fits w 0x00000000#32 0xFFFFFFFF#32 = true) :
    requestWord 0x0#4 0#4 0#8 0#8 = w :=
  (eq_of_fits_allOnes h).symm

theorem requestWord_of_fits_handle {op : BitVec 4} {w : ReqWord} (h : fits w (op.setWidth 32) 0xFFFFFF0F#32 = true) :
    requestWord op (handleField w) 0#8 0#8 = w :=
  eq_of_fits [(4, 4)] (fits_handle op _) h (by decide) (handleField_requestWord ..)

theorem requestWord_of_fits_handle_byte {op : BitVec 4} {w : ReqWord}
    (h : fits w (op.setWidth 32) 0xFFFF000F#32 = true) : requestWord op (handleField w) (aField w) 0#8 = w :=
  eq_of_fits [(4, 4), (8, 8)] (fits_handle_byte op _ _) h (by decide)
    ⟨handleField_requestWord .., aField_requestWord ..⟩

theorem requestWord_of_fits_handle_bytes {op : BitVec 4} {w : ReqWord}
    (h : fits w (op.setWidth 32) 0xFF00000F#32 = true) :
    requestWord op (handleField w) (aField w) (bField w) = w :=
  eq_of_fits [(4, 4), (8, 8), (16, 8)] (fits_handle_bytes op _ _ _) h (by decide)
    ⟨handleField_requestWord .., aField_requestWord .., bField_requestWord ..⟩

/-! ### Micro-ops (R81) -/

theorem levelBit_levelOfBit (b : Bool) : levelBit (levelOfBit b) = BitVec.ofBool b := by
  cases b <;> rfl

theorem levelField_eq (w : UopWord) : levelBit (levelOfBit (w.getLsbD 0)) = w.extractLsb' 0 1 := by
  rw [levelBit_levelOfBit]
  apply BitVec.eq_of_getLsbD_eq
  intro i hi
  obtain rfl : i = 0 := by omega
  simp

theorem lineOfCode_eq_some {c : BitVec 4} {ln : Line} : lineOfCode c = some ln ↔ lineCode ln = c := by
  revert c
  cases ln <;> decide

theorem faultOfCode_eq_some {c : BitVec 3} {f : FaultCode} : faultOfCode c = some f ↔ faultCodeBits f = c := by
  revert c
  cases f <;> decide

theorem lineField_driveWord (ln : Line) (lvl : Level) : (driveWord ln lvl).extractLsb' 8 4 = lineCode ln := by
  cases ln <;> cases lvl <;> decide

theorem levelField_driveWord (ln : Line) (lvl : Level) : (driveWord ln lvl).extractLsb' 0 1 = levelBit lvl := by
  cases ln <;> cases lvl <;> decide

theorem faultField_raiseWord (c : FaultCode) : (raiseWord c).extractLsb' 0 3 = faultCodeBits c := by
  cases c <;> decide

theorem driveWord_of_fits {w : UopWord} (h : fits w 0x0000#16 0xF0FE#16 = true) {ln : Line}
    (hln : lineCode ln = w.extractLsb' 8 4) : driveWord ln (levelOfBit (w.getLsbD 0)) = w :=
  eq_of_fits [(8, 4), (0, 1)] (fits_drive ln _) h (by decide)
    ⟨(lineField_driveWord ..).trans hln, (levelField_driveWord ..).trans (levelField_eq w)⟩

theorem delayWord_of_fits {w : UopWord} (h : fits w 0x1000#16 0xF000#16 = true) :
    delayWord (w.extractLsb' 0 12) = w :=
  eq_of_fits [(0, 12)] (fits_delay _) h (by decide) (delayField_delayWord _)

theorem writeNibble_word_of_fits {w : UopWord} (h : fits w 0x3000#16 0xFFF0#16 = true) :
    0x300#12 ++ w.extractLsb' 0 4 = w :=
  eq_of_fits [(0, 4)] (fits_writeNibble _) h (by decide) BitVec.extractLsb'_append_eq_right

theorem sendCommand_word_of_fits {w : UopWord} (h : fits w 0x4000#16 0xFF00#16 = true) :
    0x40#8 ++ w.extractLsb' 0 8 = w :=
  eq_of_fits [(0, 8)] (fits_sendCommand _) h (by decide) BitVec.extractLsb'_append_eq_right

theorem sendData_word_of_fits {w : UopWord} (h : fits w 0x5000#16 0xFF00#16 = true) :
    0x50#8 ++ w.extractLsb' 0 8 = w :=
  eq_of_fits [(0, 8)] (fits_sendData _) h (by decide) BitVec.extractLsb'_append_eq_right

theorem rowField_curSetWord (row : BitVec 4) (col : Byte) : (curSetWord row col).extractLsb' 8 4 = row := by
  rw [curSetWord, thirdNibble_append, BitVec.extractLsb'_append_eq_right]

theorem curSetWord_of_fits {w : UopWord} (h : fits w 0x6000#16 0xF000#16 = true) :
    curSetWord (w.extractLsb' 8 4) (w.extractLsb' 0 8) = w :=
  eq_of_fits [(8, 4), (0, 8)] (fits_curSet _ _) h (by decide)
    ⟨rowField_curSetWord .., BitVec.extractLsb'_append_eq_right⟩

theorem raiseWord_of_fits {w : UopWord} (h : fits w 0x7000#16 0xFFF8#16 = true) {c : FaultCode}
    (hc : faultCodeBits c = w.extractLsb' 0 3) : raiseWord c = w :=
  eq_of_fits [(0, 3)] (fits_raise c) h (by decide) ((faultField_raiseWord c).trans hc)

/-! ### Bus bytes (R95) -/

theorem setDdramAddr_word_of_fits {w : BusWord} (h : fits w 0x080#10 0x380#10 = true) :
    0b001#3 ++ w.extractLsb' 0 7 = w :=
  eq_of_fits [(0, 7)] (fits_setDdramAddr _) h (by decide) BitVec.extractLsb'_append_eq_right

theorem dataWrite_word_of_fits {w : BusWord} (h : fits w 0x200#10 0x300#10 = true) :
    0b10#2 ++ w.extractLsb' 0 8 = w :=
  eq_of_fits [(0, 8)] (fits_dataWrite _) h (by decide) BitVec.extractLsb'_append_eq_right

end Sys2Proof
end

section
/-! The decoder and the encoder (30_encoding.md R71, R73, R81, R95): a code reads as an instruction exactly when it is that
instruction's code, DELAY 0 having none. -/

namespace Sys2Proof

/-! ### Writing, then reading -/

theorem ifFits_of_fits {n : Nat} {w p m : BitVec n} (h : fits w p m = true) (r : Except DecodeError Instr) :
    ifFits w p m r = r := if_pos h

theorem ifFits_eq_ok {n : Nat} {w p m : BitVec n} {r : Except DecodeError Instr} {i : Instr} :
    ifFits w p m r = .ok i ↔ fits w p m = true ∧ r = .ok i := by
  unfold ifFits
  split <;> simp [*]

theorem withNoSide_eq_ok {side : Side} {i j : Instr} : withNoSide side j = .ok i ↔ side = .none ∧ j = i := by
  cases side <;> simp [withNoSide]

/-- Rows that test bit `k` for different values have no word in common. -/
theorem fits_eq_false_of_bit {n : Nat} {w p m q l : BitVec n} (k : Nat) (h : fits w p m = true)
    (hm : m.getLsbD k = true) (hl : l.getLsbD k = true) (hne : p.getLsbD k ≠ q.getLsbD k) : fits w q l = false :=
  Bool.eq_false_iff.2 fun h' => hne ((fits_bit h hm).symm.trans (fits_bit h' hl))

theorem decodeUop_writeNibble_word (v : Nibble) : decodeUop (0x300#12 ++ v) = .ok (.writeNibble v) := by
  have huop : uopField (0x300#12 ++ v) = 3#4 := BitVec.extractLsb'_append_eq_of_le (start := 12) (by decide)
  have hv : (0x300#12 ++ v : UopWord).extractLsb' 0 4 = v := BitVec.extractLsb'_append_eq_right
  simp [decodeUop, huop, hv, ifFits_of_fits (fits_writeNibble v)]

theorem decodeUop_sendCommand_word (b : Byte) : decodeUop (0x40#8 ++ b) = .ok (.sendCommand b) := by
  simp [decodeUop, uopField_append, lowByte_append, ifFits_of_fits (fits_sendCommand b)]

theorem decodeUop_sendData_word (b : Byte) : decodeUop (0x50#8 ++ b) = .ok (.sendData b) := by
  simp [decodeUop, uopField_append, lowByte_append, ifFits_of_fits (fits_sendData b)]

/-- The five commands clear bit 7, which the address row sets (R88). -/
theorem decodeBus_setDdramAddr_word (addr : BitVec 7) :
    decodeBus (0b001#3 ++ addr) = .ok (.cmdSetDdramAddr addr) := by
  have hrow := fits_setDdramAddr addr
  have hno : ∀ q : BusWord, q.getLsbD 7 = false → fits (0b001#3 ++ addr : BusWord) q 0x3FF#10 = false := fun q hq =>
    fits_eq_false_of_bit 7 hrow rfl rfl (by rw [hq]; decide)
  have haddr : (0b001#3 ++ addr : BusWord).extractLsb' 0 7 = addr := BitVec.extractLsb'_append_eq_right
  simp [decodeBus, hrow, hno, haddr]

/-- Every command clears bit 9, which is RS and which the data row sets (R85, R93). -/
theorem decodeBus_dataWrite_word (b : Byte) : decodeBus (0b10#2 ++ b) = .ok (.dataWrite b) := by
  have hrow := fits_dataWrite b
  have hno : ∀ q l : BusWord, q.getLsbD 9 = false → l.getLsbD 9 = true → fits (0b10#2 ++ b : BusWord) q l = false :=
    fun q l hq hl => fits_eq_false_of_bit 9 hrow rfl hl (by rw [hq]; decide)
  have hb : (0b10#2 ++ b : BusWord).extractLsb' 0 8 = b := BitVec.extractLsb'_append_eq_right
  simp [decodeBus, hrow, hno, hb]

/-- Every instruction but DELAY 0, which has no word (R81), is read back from its code. -/
theorem decode_encode {i : Instr} (hi : i ≠ .delay 0#12) : decode (encode i) = .ok i := by
  cases i with
  | init p => rfl
  | beginInit h =>
    simpa [encode, decode, decodeRequest, withNoSide] using ifFits_of_fits (fits_handle 0x1#4 h) (.ok (.beginInit h))
  | clearScreen h =>
    simpa [encode, decode, decodeRequest, withNoSide] using ifFits_of_fits (fits_handle 0x2#4 h) (.ok (.clearScreen h))
  | home h =>
    simpa [encode, decode, decodeRequest, withNoSide] using ifFits_of_fits (fits_handle 0x3#4 h) (.ok (.home h))
  | setCursor h row column =>
    simpa [encode, decode, decodeRequest, withNoSide] using
      ifFits_of_fits (fits_handle_bytes 0x4#4 h row column) (.ok (.setCursor h row column))
  | putChar h b =>
    simpa [encode, decode, decodeRequest, withNoSide] using
      ifFits_of_fits (fits_handle_byte 0x5#4 h b) (.ok (.putChar h b))
  | putStr h str =>
    simpa [encode, decode, decodeRequest] using ifFits_of_fits (fits_handle 0x6#4 h) (.ok (.putStr h str))
  | drive ln lvl => exact Machine.decodeUop_leafWord (.drive ln lvl) nofun
  | delay n => exact Machine.decodeUop_leafWord (.delay n) fun h => hi (by cases h; rfl)
  | enablePulse => rfl
  | writeNibble v => exact decodeUop_writeNibble_word v
  | sendCommand b => exact decodeUop_sendCommand_word b
  | sendData b => exact decodeUop_sendData_word b
  | curSet row col => exact Machine.decodeUop_leafWord (.curSet row col) nofun
  | raise c => exact Machine.decodeUop_leafWord (.raise c) nofun
  | cmdFunctionSet => rfl
  | cmdDisplayControl => rfl
  | cmdEntryMode => rfl
  | cmdClear => rfl
  | cmdHome => rfl
  | cmdSetDdramAddr addr => exact decodeBus_setDdramAddr_word addr
  | dataWrite b => exact decodeBus_dataWrite_word b

/-- Settles O1: DELAY 0 is not well-formed. -/
theorem decodeEncodeRoundTrip : Obligations.DecodeEncodeRoundTrip := by
  intro i hwf
  apply decode_encode
  rintro rfl
  cases hwf

/-! ### Reading, then writing -/

/-- A row of R71 with no side operand. -/
theorem ifFits_withNoSide_eq_ok {w p m : ReqWord} {side : Side} {i j : Instr} :
    ifFits w p m (withNoSide side j) = .ok i ↔ fits w p m = true ∧ side = .none ∧ j = i := by
  rw [ifFits_eq_ok, withNoSide_eq_ok]

theorem encode_of_decodeRequest {w : ReqWord} {side : Side} {i : Instr} (h : decodeRequest w side = .ok i) :
    encode i = .request w side := by
  unfold decodeRequest at h
  split at h
  case h_1 =>
    obtain ⟨hw, hside⟩ := ifFits_eq_ok.1 h
    cases side <;> cases hside
    exact congrArg (Code.request · _) (requestWord_of_fits_init hw)
  case h_2 =>
    obtain ⟨hw, rfl, rfl⟩ := ifFits_withNoSide_eq_ok.1 h
    exact congrArg (Code.request · .none) (requestWord_of_fits_handle (op := 0x1#4) hw)
  case h_3 =>
    obtain ⟨hw, rfl, rfl⟩ := ifFits_withNoSide_eq_ok.1 h
    exact congrArg (Code.request · .none) (requestWord_of_fits_handle (op := 0x2#4) hw)
  case h_4 =>
    obtain ⟨hw, rfl, rfl⟩ := ifFits_withNoSide_eq_ok.1 h
    exact congrArg (Code.request · .none) (requestWord_of_fits_handle (op := 0x3#4) hw)
  case h_5 =>
    obtain ⟨hw, rfl, rfl⟩ := ifFits_withNoSide_eq_ok.1 h
    exact congrArg (Code.request · .none) (requestWord_of_fits_handle_bytes (op := 0x4#4) hw)
  case h_6 =>
    obtain ⟨hw, rfl, rfl⟩ := ifFits_withNoSide_eq_ok.1 h
    exact congrArg (Code.request · .none) (requestWord_of_fits_handle_byte (op := 0x5#4) hw)
  case h_7 =>
    obtain ⟨hw, hside⟩ := ifFits_eq_ok.1 h
    cases side <;> cases hside
    exact congrArg (Code.request · _) (requestWord_of_fits_handle (op := 0x6#4) hw)
  case h_8 => cases h

theorem encode_of_decodeUop {w : UopWord} {i : Instr} (h : decodeUop w = .ok i) : encode i = .uop w := by
  unfold decodeUop at h
  split at h
  case h_9 => cases h
  all_goals obtain ⟨hw, hi⟩ := ifFits_eq_ok.1 h
  case h_1 =>
    split at hi <;> cases hi
    next ln hln => exact congrArg Code.uop (driveWord_of_fits hw (lineOfCode_eq_some.1 hln))
  case h_2 =>
    split at hi <;> cases hi
    exact congrArg Code.uop (delayWord_of_fits hw)
  case h_8 =>
    split at hi <;> cases hi
    next c hc => exact congrArg Code.uop (raiseWord_of_fits hw (faultOfCode_eq_some.1 hc))
  all_goals cases hi
  · exact congrArg Code.uop (eq_of_fits_allOnes hw).symm
  · exact congrArg Code.uop (writeNibble_word_of_fits hw)
  · exact congrArg Code.uop (sendCommand_word_of_fits hw)
  · exact congrArg Code.uop (sendData_word_of_fits hw)
  · exact congrArg Code.uop (curSetWord_of_fits hw)

theorem encode_of_decodeBus {w : BusWord} {i : Instr} (h : decodeBus w = .ok i) : encode i = .bus w := by
  unfold decodeBus at h
  split_ifs at h with h1 h2 h3 h4 h5 haddr hdata <;> cases h
  · exact congrArg Code.bus (eq_of_fits_allOnes h1).symm
  · exact congrArg Code.bus (eq_of_fits_allOnes h2).symm
  · exact congrArg Code.bus (eq_of_fits_allOnes h3).symm
  · exact congrArg Code.bus (eq_of_fits_allOnes h4).symm
  · exact congrArg Code.bus (eq_of_fits_allOnes h5).symm
  · exact congrArg Code.bus (setDdramAddr_word_of_fits haddr)
  · exact congrArg Code.bus (dataWrite_word_of_fits hdata)

/-- Settles O2: in each of the three forms what is read, written again, is the word that was read. -/
theorem acceptedCodesAreCanonical : Obligations.AcceptedCodesAreCanonical
  | .request _ _, _, h => encode_of_decodeRequest h
  | .uop _, _, h => encode_of_decodeUop h
  | .bus _, _, h => encode_of_decodeBus h

end Sys2Proof
end

section
/-! Which micro-op words are read (30_encoding.md R80 to R83), and which requests are legal (R73): those that are the code of an
instruction, which are the words of the table's rows. -/

namespace Sys2Proof

theorem exists_decode_of_encode {c : Code} {i : Instr} (h : encode i = c) (hi : i ≠ .delay 0#12) :
    ∃ i, decode c = .ok i :=
  ⟨i, h ▸ decode_encode hi⟩

/-! ### Micro-op words -/

theorem lineCode_le (ln : Line) : (lineCode ln).toNat ≤ 6 := by
  cases ln <;> decide

theorem exists_lineCode {c : BitVec 4} (h : c.toNat ≤ 6) : ∃ ln, lineCode ln = c := by
  have hsome : ∀ c : BitVec 4, c.toNat ≤ 6 → (lineOfCode c).isSome = true := by decide
  obtain ⟨ln, hln⟩ := Option.isSome_iff_exists.1 (hsome c h)
  exact ⟨ln, lineOfCode_eq_some.1 hln⟩

theorem faultCodeBits_range (c : FaultCode) : 1 ≤ (faultCodeBits c).toNat ∧ (faultCodeBits c).toNat ≤ 4 := by
  cases c <;> decide

theorem exists_faultCodeBits {c : BitVec 3} (h : 1 ≤ c.toNat ∧ c.toNat ≤ 4) : ∃ f, faultCodeBits f = c := by
  have hsome : ∀ c : BitVec 3, 1 ≤ c.toNat ∧ c.toNat ≤ 4 → (faultOfCode c).isSome = true := by decide
  obtain ⟨f, hf⟩ := Option.isSome_iff_exists.1 (hsome c h)
  exact ⟨f, faultOfCode_eq_some.1 hf⟩

theorem delay_ne_zero {n : BitVec 12} : Instr.delay n ≠ .delay 0#12 ↔ 1 ≤ n.toNat := by
  rw [Nat.one_le_iff_ne_zero, ne_eq, ne_eq, Instr.delay.injEq, ← BitVec.toNat_inj]
  rfl

theorem ne_delay_zero_of_decodeUop {w : UopWord} {i : Instr} (h : decodeUop w = .ok i) : i ≠ .delay 0#12 := by
  rintro rfl
  cases (encode_of_decodeUop h)
  cases h

/-- Settles O4: a word that is read is the code of what it reads as, so it fits that row and holds its operands; a word that
fits a row with such operands is such a code. -/
theorem microOpsAreExactlyTheTableRows : Obligations.MicroOpsAreExactlyTheTableRows := by
  intro w
  constructor
  case mp =>
    rintro ⟨i, hi⟩
    have hcode := encode_of_decodeUop hi
    have hdelay := ne_delay_zero_of_decodeUop hi
    cases i <;> cases hcode
    case drive ln lvl => exact .inl ⟨fits_iff.1 (fits_drive ln lvl), lineField_driveWord ln lvl ▸ lineCode_le ln⟩
    case delay n =>
      exact .inr (.inl ⟨fits_iff.1 (fits_delay n), (delayField_delayWord n).symm ▸ delay_ne_zero.1 hdelay⟩)
    case enablePulse => exact .inr (.inr (.inl rfl))
    case writeNibble v => exact .inr (.inr (.inr (.inl (fits_iff.1 (fits_writeNibble v)))))
    case sendCommand b => exact .inr (.inr (.inr (.inr (.inl (fits_iff.1 (fits_sendCommand b))))))
    case sendData b => exact .inr (.inr (.inr (.inr (.inr (.inl (fits_iff.1 (fits_sendData b)))))))
    case curSet row col => exact .inr (.inr (.inr (.inr (.inr (.inr (.inl (fits_iff.1 (fits_curSet row col))))))))
    case raise c =>
      exact .inr (.inr (.inr (.inr (.inr (.inr (.inr
        ⟨fits_iff.1 (fits_raise c), faultField_raiseWord c ▸ faultCodeBits_range c⟩))))))
  case mpr =>
    rintro (⟨hw, hln⟩ | ⟨hw, hn⟩ | rfl | hw | hw | hw | hw | ⟨hw, hc⟩)
    · obtain ⟨ln, hln⟩ := exists_lineCode hln
      exact exists_decode_of_encode (i := .drive ln _) (congrArg Code.uop (driveWord_of_fits (fits_iff.2 hw) hln)) nofun
    · exact exists_decode_of_encode (i := .delay _)
        (congrArg Code.uop (delayWord_of_fits (fits_iff.2 hw))) (delay_ne_zero.2 hn)
    · exact ⟨.enablePulse, rfl⟩
    · exact exists_decode_of_encode (i := .writeNibble _)
        (congrArg Code.uop (writeNibble_word_of_fits (fits_iff.2 hw))) nofun
    · exact exists_decode_of_encode (i := .sendCommand _)
        (congrArg Code.uop (sendCommand_word_of_fits (fits_iff.2 hw))) nofun
    · exact exists_decode_of_encode (i := .sendData _) (congrArg Code.uop (sendData_word_of_fits (fits_iff.2 hw))) nofun
    · exact exists_decode_of_encode (i := .curSet _ _) (congrArg Code.uop (curSetWord_of_fits (fits_iff.2 hw))) nofun
    · obtain ⟨c, hc⟩ := exists_faultCodeBits hc
      exact exists_decode_of_encode (i := .raise c) (congrArg Code.uop (raiseWord_of_fits (fits_iff.2 hw) hc)) nofun

/-! ### Legal requests -/

theorem legalRequest_iff {w : ReqWord} {side : Side} :
    legalRequest w side = true ↔ ∃ i, decodeRequest w side = .ok i := by
  unfold legalRequest
  split <;> simp [*]

end Sys2Proof

namespace Sys2Proof.Machine

theorem fetch_present {s : State} {w : ReqWord} {side : Side} {rest : List HostMove} (hf : s.fault = none)
    (hbus : s.busIn = none) (hhost : s.host = .present w side :: rest) :
    fetch s = present w side { s with host := rest } := by
  simp [fetch, hf, hbus, hostStep, hhost]

theorem present_illegal {w : ReqWord} {side : Side} (h : legalRequest w side = false) (s : State) :
    present w side s = .done (.next (rejectRequest s)) := by
  cases hd : decodeRequest w side with
  | ok i => simp [legalRequest, hd] at h
  | error e => simp [present, hd]

theorem rejectRequest_idle {s : State} (hb : s.busy = false) : rejectRequest s = raiseFault .illegalRequest s := by
  simp [rejectRequest, hb]

/-- Settles O3: the codes of the seven requests are the words of R71's rows; an illegal request is rejected before it is an
instruction. -/
theorem illegalRequestsAreRejected : Obligations.IllegalRequestsAreRejected := by
  refine ⟨fun w side => legalRequest_iff.trans ⟨?row_of_legal, ?legal_of_row⟩,
    fun s w side rest hf hb hbus hhost hillegal => ?rejected⟩
  case row_of_legal =>
    rintro ⟨i, hi⟩
    have hcode := encode_of_decodeRequest hi
    cases i <;> cases hcode
    case init p => exact .inl ⟨rfl, rfl, p, rfl⟩
    case beginInit h => exact .inr (.inl ⟨opField_requestWord .., fits_iff.1 (fits_handle 0x1#4 h), rfl⟩)
    case clearScreen h => exact .inr (.inr (.inl ⟨opField_requestWord .., fits_iff.1 (fits_handle 0x2#4 h), rfl⟩))
    case home h => exact .inr (.inr (.inr (.inl ⟨opField_requestWord .., fits_iff.1 (fits_handle 0x3#4 h), rfl⟩)))
    case setCursor h row column =>
      exact .inr (.inr (.inr (.inr (.inl
        ⟨opField_requestWord .., fits_iff.1 (fits_handle_bytes 0x4#4 h row column), rfl⟩))))
    case putChar h b =>
      exact .inr (.inr (.inr (.inr (.inr (.inl
        ⟨opField_requestWord .., fits_iff.1 (fits_handle_byte 0x5#4 h b), rfl⟩)))))
    case putStr h str =>
      exact .inr (.inr (.inr (.inr (.inr (.inr
        ⟨opField_requestWord .., fits_iff.1 (fits_handle 0x6#4 h), str, rfl⟩)))))
  case legal_of_row =>
    rintro (⟨-, hw, p, rfl⟩ | ⟨-, hw, rfl⟩ | ⟨-, hw, rfl⟩ | ⟨-, hw, rfl⟩ | ⟨-, hw, rfl⟩ | ⟨-, hw, rfl⟩ |
      ⟨-, hw, str, rfl⟩)
    all_goals rw [← fits_iff] at hw
    · exact exists_decode_of_encode (i := .init p) (congrArg (Code.request · _) (requestWord_of_fits_init hw)) nofun
    · exact exists_decode_of_encode (i := .beginInit _)
        (congrArg (Code.request · _) (requestWord_of_fits_handle hw)) nofun
    · exact exists_decode_of_encode (i := .clearScreen _)
        (congrArg (Code.request · _) (requestWord_of_fits_handle hw)) nofun
    · exact exists_decode_of_encode (i := .home _) (congrArg (Code.request · _) (requestWord_of_fits_handle hw)) nofun
    · exact exists_decode_of_encode (i := .setCursor _ _ _)
        (congrArg (Code.request · _) (requestWord_of_fits_handle_bytes hw)) nofun
    · exact exists_decode_of_encode (i := .putChar _ _)
        (congrArg (Code.request · _) (requestWord_of_fits_handle_byte hw)) nofun
    · exact exists_decode_of_encode (i := .putStr _ str)
        (congrArg (Code.request · _) (requestWord_of_fits_handle hw)) nofun
  case rejected =>
    have hb' : ({ s with host := rest } : State).busy = false := hb
    rw [step, fetch_present hf hbus hhost, present_illegal hillegal, rejectRequest_idle hb']
    rfl

end Sys2Proof.Machine
end

section
/-! Bus bytes (30_encoding.md R85 to R95): which bytes are emitted, and that each is sent as its `(RS, b)`; and the words the
spec writes out, of all three forms. -/

namespace Sys2Proof.Machine

/-! ### Emitted bytes -/

/-- SETDDRAMADDR sets the one bit the address leaves free (R88). -/
theorem toNat_setDdramByte (addr : BitVec 7) : (setDdramByte addr).toNat = 0x80 + addr.toNat := by
  have hor : 0x80 + addr.toNat = 0x80 ||| addr.toNat := Nat.two_pow_add_eq_or_of_lt addr.isLt 1
  have hlt : addr.toNat < 256 := by omega
  rw [hor, setDdramByte, BitVec.toNat_or, BitVec.toNat_setWidth, Nat.mod_eq_of_lt hlt]
  rfl

theorem setDdramByte_eq_ofNat (addr : BitVec 7) : setDdramByte addr = BitVec.ofNat 8 (0x80 + addr.toNat) := by
  rw [← toNat_setDdramByte, BitVec.ofNat_toNat, BitVec.setWidth_eq]

theorem busWord_setDdramByte (addr : BitVec 7) :
    (0b00#2 ++ setDdramByte addr : BusWord) = (0b001#3 ++ addr : BusWord) := by
  apply BitVec.eq_of_toNat_eq
  have hl : (0b00#2 ++ setDdramByte addr : BusWord).toNat = _ := BitVec.toNat_append 0b00#2 (setDdramByte addr)
  have hr : (0b001#3 ++ addr : BusWord).toNat = _ := BitVec.toNat_append 0b001#3 addr
  have hor : 0x80 + addr.toNat = 0x80 ||| addr.toNat := Nat.two_pow_add_eq_or_of_lt addr.isLt 1
  rw [hl, hr, toNat_setDdramByte, hor]
  simp

/-- R63, R94: an address computed from a cell of the display is one the display has. -/
theorem ddramAddrOk_ddramAddr {dw row column : Nat} (hdw : dw ≤ 64) (hc : column < dw) :
    ddramAddrOk dw (ddramAddr row column) = true := by
  simp only [ddramAddrOk, ddramAddr, Config.row1Base, Bool.or_eq_true, Bool.and_eq_true, decide_eq_true_eq,
    BitVec.toNat_ofNat]
  split <;> omega

/-- Settles O6: each emitted byte is the code of its row, so it reads as that row. -/
theorem emittedBytesAreTableRows : Obligations.EmittedBytesAreTableRows := by
  refine ⟨rfl, rfl, rfl, rfl, rfl, fun row column => ⟨_, rfl, ?_, ?_⟩, decodeBus_dataWrite_word⟩
  · rw [busWord_setDdramByte]
    exact decodeBus_setDdramAddr_word _
  · exact ddramAddrOk_ddramAddr Config.displayWidth_le (Nat.mod_lt _ Config.displayWidth_pos)

/-! ### Sent bytes -/

/-- Leaves that leave the cursor where it is change only the lines. -/
theorem afterLeaves_frame {s : State} {slot : Slot} {us : List Leaf} (hi : instOf s s.active = some slot)
    (hc : cursorAfter slot.row slot.col us = (slot.row, slot.col)) :
    afterLeaves slot us s =
      { s with level := (afterLeaves slot us s).level, trace := (afterLeaves slot us s).trace } := by
  have hinsts := congrArg State.insts (afterLeaves_nil hi)
  simp only [afterLeaves, cursorAfter] at hinsts
  simp only [afterLeaves, hc, hinsts]

/-- What is no request and performs the leaves of one byte sends that byte (R85, R120, R121), and changes only the lines. -/
theorem exec_sendByte {i : Instr} {rs : Level} {b : Byte} {s : State} {slot : Slot} (hr : isRequest i = false)
    (hp : performedBy i = sendByteLeaves rs b) (hf : s.fault = none) (hi : instOf s s.active = some slot) :
    ∃ t, exec i s = .next t ∧ t.trace = s.trace ++ byteEvents slot.pins rs b ∧
      t.level = replayFrom s.level (byteEvents slot.pins rs b) ∧
      t = { s with level := t.level, trace := t.trace } := by
  refine ⟨afterLeaves slot (sendByteLeaves rs b) s, ?_, ?_, ?_, afterLeaves_frame hi (cursorAfter_sendByte ..)⟩
  · rw [exec_performs hr, unlessHalted_live hf, hp, performLeaves_goesOn _ (leafGoesOn_sendByte rs b) hi]
  · rw [afterLeaves_trace, eventsOf_sendByte]
  · rw [afterLeaves_level, eventsOf_sendByte]

/-- Settles O19: each row performs the leaves of its byte. -/
theorem busBytesAreSent : Obligations.BusBytesAreSent := by
  intro s slot addr d hf hi i rs b hrow
  have hsends : isRequest i = false ∧ performedBy i = sendByteLeaves rs b := by
    simp only [← setDdramByte_eq_ofNat, List.mem_cons, Prod.mk.injEq, List.not_mem_nil, or_false] at hrow
    obtain ⟨rfl, rfl, rfl⟩ | ⟨rfl, rfl, rfl⟩ | ⟨rfl, rfl, rfl⟩ | ⟨rfl, rfl, rfl⟩ | ⟨rfl, rfl, rfl⟩ | ⟨rfl, rfl, rfl⟩ |
      ⟨rfl, rfl, rfl⟩ := hrow <;> exact ⟨rfl, rfl⟩
  obtain ⟨hr, hp⟩ := hsends
  exact exec_sendByte hr hp hf hi

/-! ### The spec's own words -/

/-- Settles O5: the decoder computes on each word. -/
theorem specWordsDecode : Obligations.SpecWordsDecode := by
  unfold Obligations.SpecWordsDecode
  decide

end Sys2Proof.Machine
end

section
/-! The signal driver (40_signal_driver.md R100 to R107): what DRIVE, DELAY, ENABLEPULSE and WRITENIBBLE do, the levels a nibble
leaves, and the one latch it makes. -/

namespace Sys2Proof.Machine

/-! ### Lines and edges of a list of events -/

/-- Seven distinct descriptors: distinct lines have distinct ones. -/
theorem pinOf_injective {p : Pins} (hp : pinsDistinct p = true) : Function.Injective (pinOf p) := by
  have hnodup : ([.E, .RS, .RW, .D0, .D1, .D2, .D3].map (pinOf p)).Nodup := of_decide_eq_true hp
  have hall : ∀ ln : Line, ln ∈ [Line.E, .RS, .RW, .D0, .D1, .D2, .D3] := by
    intro ln
    cases ln <;> decide
  exact fun a b => List.inj_on_of_nodup_map hnodup (hall a) (hall b)

/-- A descriptor that no event drives keeps its level. -/
theorem levelOf_replayFrom_of_undriven {q : Pin} {es : List Event} (lv : List (Pin × Level))
    (h : ∀ v, Event.drive q v ∉ es) : levelOf (replayFrom lv es) q = levelOf lv q := by
  induction es generalizing lv with
  | nil => rfl
  | cons e es ih =>
    have htail : ∀ v, Event.drive q v ∉ es := fun v hv => h v (List.mem_cons_of_mem e hv)
    rw [replayFrom, ih _ htail]
    cases e with
    | delay n => rfl
    | drive r v =>
      have hne : q ≠ r := fun hq => h v (hq ▸ List.mem_cons_self)
      exact levelOf_setLevel_other hne v lv

/-- Only a drive of E makes an edge (R106). -/
theorem edges_of_e_undriven {p : Pins} {es : List Event} (lv : List (Pin × Level))
    (h : ∀ v, Event.drive p.e v ∉ es) : edges p lv es = [] := by
  induction es generalizing lv with
  | nil => rfl
  | cons e es ih =>
    have htail : ∀ v, Event.drive p.e v ∉ es := fun v hv => h v (List.mem_cons_of_mem e hv)
    rw [edges, ih _ htail, List.append_nil]
    cases e with
    | delay n => rfl
    | drive r v =>
      have hne : r ≠ p.e := fun hr => h v (hr ▸ List.mem_cons_self)
      cases v <;> simp [edgeOf, hne]

/-- A micro-op or bus byte whose leaves go on runs to completion (R11; log entry 14). -/
theorem exec_goesOn {i : Instr} {s : State} {slot : Slot} (hr : isRequest i = false)
    (hgo : ∀ u ∈ performedBy i, leafGoesOn u = true) (hf : s.fault = none) (hi : instOf s s.active = some slot) :
    exec i s = .next (afterLeaves slot (performedBy i) s) := by
  rw [exec_performs hr, unlessHalted_live hf, performLeaves_goesOn _ hgo hi]

/-! ### One line, one wait -/

theorem driveWord_eq_or (ln : Line) (lvl : Level) :
    driveWord ln lvl = 0x0000#16 ||| ((lineCode ln).setWidth 16 <<< 8) ||| (levelBit lvl).setWidth 16 := by
  cases ln <;> cases lvl <;> decide

theorem delayWord_eq_or (n : BitVec 12) : delayWord n = 0x1000#16 ||| n.setWidth 16 := by
  apply BitVec.eq_of_toNat_eq
  have hword : (delayWord n).toNat = _ := BitVec.toNat_append 0x1#4 n
  have hn : n.toNat < 65536 := by omega
  rw [hword, BitVec.toNat_or, BitVec.toNat_setWidth, Nat.mod_eq_of_lt hn]
  rfl

/-- Settles O14: DRIVE is one drive of the line's descriptor. -/
theorem driveDrivesOneLine : Obligations.DriveDrivesOneLine := by
  intro s slot ln lvl hf hi
  have hexec : exec (.drive ln lvl) s = .next (drivePin (pinOf slot.pins ln) lvl s) :=
    (exec_leafInstr (.drive ln lvl) hf).trans (driveLine_of_instOf hi ln lvl)
  exact ⟨congrArg Code.uop (driveWord_eq_or ln lvl), _, hexec, levelOf_setLevel_self .., fun _ hq =>
    levelOf_setLevel_other hq .., rfl, rfl⟩

/-- Settles O15: DELAY of a positive number is the wait, and nothing else. -/
theorem delayRequestsOneWait : Obligations.DelayRequestsOneWait := by
  intro s n hf hn
  have hne : n ≠ 0#12 := by
    rintro rfl
    cases hn
  exact ⟨congrArg Code.uop (delayWord_eq_or n), (exec_leafInstr (.delay n) hf).trans (requestDelay_of_ne hne s)⟩

/-! ### The Enable pulse -/

theorem leafGoesOn_pulse : ∀ u ∈ enablePulseLeaves, leafGoesOn u = true := by decide

theorem levelOf_e_pulseEvents (p : Pins) (lv : List (Pin × Level)) :
    levelOf (replayFrom lv (pulseEvents p)) p.e = .H := by
  simp [pulseEvents, replayFrom, levelsAfter, seenOf]

/-- The pulse drives E only. -/
theorem levelOf_other_pulseEvents {p : Pins} {q : Pin} (hq : q ≠ p.e) (lv : List (Pin × Level)) :
    levelOf (replayFrom lv (pulseEvents p)) q = levelOf lv q :=
  levelOf_replayFrom_of_undriven lv (by simp [pulseEvents, hq])

/-- Settles O16: the pulse's leaves go on, and drive E only, high last. -/
theorem enablePulseWaveform : Obligations.EnablePulseWaveform := by
  intro s slot hf hi
  exact ⟨_, exec_goesOn rfl leafGoesOn_pulse hf hi, rfl, levelOf_e_pulseEvents slot.pins s.level,
    fun _ hq => levelOf_other_pulseEvents hq s.level, afterLeaves_frame hi rfl⟩

/-- A transfer is read from the lines other than E (R85, R106). -/
theorem sample_congr {p : Pins} {lv lv' : List (Pin × Level)}
    (h : ∀ ln, ln ≠ .E → levelOf lv (pinOf p ln) = levelOf lv' (pinOf p ln)) : sample p lv = sample p lv' := by
  rw [sample, sample, Transfer.mk.injEq]
  exact ⟨h .RS nofun, h .RW nofun, h .D3 nofun, h .D2 nofun, h .D1 nofun, h .D0 nofun⟩

theorem sample_setLevel_e {p : Pins} (hp : pinsDistinct p = true) (v : Level) (lv : List (Pin × Level)) :
    sample p (setLevel p.e v lv) = sample p lv :=
  sample_congr fun _ hln => levelOf_setLevel_other ((pinOf_injective hp).ne hln) v lv

/-- The pulse's own rise makes its fall a latch, of the lines as they stand, whatever the level of E before (R106). -/
theorem edges_pulseEvents {p : Pins} (hp : pinsDistinct p = true) (lv : List (Pin × Level)) :
    edges p lv (pulseEvents p) = [.latch (sample p lv)] := by
  simp [pulseEvents, edges, edgeOf, levelsAfter, seenOf, sample_setLevel_e hp]

/-! ### A nibble -/

/-- The four data drives of a nibble (R104), before its pulse. -/
def dataLeaves (v : Nibble) : List Leaf :=
  [.drive .D0 (bitLevel v 0), .drive .D1 (bitLevel v 1), .drive .D2 (bitLevel v 2), .drive .D3 (bitLevel v 3)]

theorem writeNibbleLeaves_eq (v : Nibble) : writeNibbleLeaves v = dataLeaves v ++ enablePulseLeaves := rfl

theorem nibbleEvents_eq (p : Pins) (v : Nibble) : nibbleEvents p v = eventsOf p (dataLeaves v) ++ pulseEvents p := rfl

theorem leafGoesOn_nibble (v : Nibble) : ∀ u ∈ writeNibbleLeaves v, leafGoesOn u = true := by
  rw [writeNibbleLeaves_eq, List.forall_mem_append]
  exact ⟨by simp [dataLeaves, leafGoesOn], leafGoesOn_pulse⟩

theorem seenOf_bitLevel (v : Nibble) (i : Nat) : seenOf (bitLevel v i) = if v.getLsbD i then .H else .L := by
  cases hb : v.getLsbD i <;> simp [bitLevel, levelOfBit, hb, seenOf]

theorem drive_mem_dataEvents {p : Pins} {v : Nibble} {q : Pin} {lvl : Level}
    (h : Event.drive q lvl ∈ eventsOf p (dataLeaves v)) : q ∈ [p.d0, p.d1, p.d2, p.d3] := by
  simp only [dataLeaves, eventsOf, leafEvents, List.cons_append, List.nil_append, List.mem_cons, Event.drive.injEq,
    List.not_mem_nil, or_false] at h
  obtain ⟨rfl, -⟩ | ⟨rfl, -⟩ | ⟨rfl, -⟩ | ⟨rfl, -⟩ := h <;> simp [pinOf]

/-- Of a line that is no data line, the data drives keep the level. -/
theorem levelOf_other_dataEvents {p : Pins} {q : Pin} (hq : q ∉ [p.d0, p.d1, p.d2, p.d3]) (v : Nibble)
    (lv : List (Pin × Level)) : levelOf (replayFrom lv (eventsOf p (dataLeaves v))) q = levelOf lv q :=
  levelOf_replayFrom_of_undriven lv fun _ h => hq (drive_mem_dataEvents h)

/-- R104: bit `i` on line Di; the drives after it are of other lines. -/
theorem levelOf_dataEvents {p : Pins} (hp : pinsDistinct p = true) (v : Nibble) (lv : List (Pin × Level)) {ln : Line}
    {i : Nat} (h : (ln, i) ∈ [(Line.D0, 0), (Line.D1, 1), (Line.D2, 2), (Line.D3, 3)]) :
    levelOf (replayFrom lv (eventsOf p (dataLeaves v))) (pinOf p ln) = if v.getLsbD i then .H else .L := by
  rw [← seenOf_bitLevel]
  simp only [List.mem_cons, Prod.mk.injEq, List.not_mem_nil, or_false] at h
  obtain ⟨rfl, rfl⟩ | ⟨rfl, rfl⟩ | ⟨rfl, rfl⟩ | ⟨rfl, rfl⟩ := h <;>
    simp [dataLeaves, eventsOf, leafEvents, replayFrom, levelsAfter, levelOf_setLevel, (pinOf_injective hp).eq_iff]

theorem replayFrom_nibbleEvents (p : Pins) (v : Nibble) (lv : List (Pin × Level)) :
    replayFrom lv (nibbleEvents p v) = replayFrom (replayFrom lv (eventsOf p (dataLeaves v))) (pulseEvents p) := by
  rw [nibbleEvents_eq, replayFrom_append]

/-- The pulse leaves the data lines at the nibble's bits. -/
theorem levelOf_data_nibbleEvents {p : Pins} (hp : pinsDistinct p = true) (v : Nibble) (lv : List (Pin × Level))
    {ln : Line} {i : Nat} (h : (ln, i) ∈ [(Line.D0, 0), (Line.D1, 1), (Line.D2, 2), (Line.D3, 3)]) :
    levelOf (replayFrom lv (nibbleEvents p v)) (pinOf p ln) = if v.getLsbD i then .H else .L := by
  have hln : ln ≠ .E := by
    rintro rfl
    simp at h
  rw [replayFrom_nibbleEvents, levelOf_other_pulseEvents ((pinOf_injective hp).ne hln), levelOf_dataEvents hp v lv h]

theorem levelOf_other_nibbleEvents {p : Pins} {q : Pin} (hq : q ∉ [p.e, p.d0, p.d1, p.d2, p.d3]) (v : Nibble)
    (lv : List (Pin × Level)) : levelOf (replayFrom lv (nibbleEvents p v)) q = levelOf lv q := by
  obtain ⟨he, hdata⟩ := not_or.1 (List.mem_cons.not.1 hq)
  rw [replayFrom_nibbleEvents, levelOf_other_pulseEvents he, levelOf_other_dataEvents hdata]

/-- Settles O17: the nibble's leaves go on, and their events are the data drives and the pulse. -/
theorem writeNibbleDrivesItsBits : Obligations.WriteNibbleDrivesItsBits := by
  intro s slot v hf hi
  exact ⟨_, exec_goesOn rfl (leafGoesOn_nibble v) hf hi, rfl, rfl, levelOf_e_nibbleEvents slot.pins s.level v,
    fun hp _ _ h => levelOf_data_nibbleEvents hp v s.level h, fun _ hq => levelOf_other_nibbleEvents hq v s.level,
    afterLeaves_frame hi rfl⟩

/-! ### The latch of a nibble -/

theorem pinOf_not_mem_data {p : Pins} (hp : pinsDistinct p = true) {ln : Line}
    (h : ln ∉ [Line.D0, .D1, .D2, .D3]) : pinOf p ln ∉ [p.d0, p.d1, p.d2, p.d3] :=
  (List.mem_map_of_injective (pinOf_injective hp)).not.2 h

/-- What a pulse after the data drives latches: the nibble, under the caller's RS and RW. -/
theorem sample_dataEvents {p : Pins} (hp : pinsDistinct p = true) (v : Nibble) (lv : List (Pin × Level)) :
    sample p (replayFrom lv (eventsOf p (dataLeaves v))) =
      { nibbleTransfer .L v with rs := levelOf lv p.rs, rw := levelOf lv p.rw } := by
  have hdata := @levelOf_dataEvents p hp v lv
  have hcontrol : ∀ ln, ln ∉ [Line.D0, .D1, .D2, .D3] →
      levelOf (replayFrom lv (eventsOf p (dataLeaves v))) (pinOf p ln) = levelOf lv (pinOf p ln) := fun ln hln =>
    levelOf_other_dataEvents (pinOf_not_mem_data hp hln) v lv
  rw [sample, nibbleTransfer, Transfer.mk.injEq]
  exact ⟨hcontrol .RS (by decide), hcontrol .RW (by decide), hdata (ln := .D3) (by decide),
    hdata (ln := .D2) (by decide), hdata (ln := .D1) (by decide), hdata (ln := .D0) (by decide)⟩

/-- The data drives make no edge, so a nibble's edges are its pulse's. -/
theorem edges_nibbleEvents {p : Pins} (hp : pinsDistinct p = true) (lv : List (Pin × Level)) (v : Nibble) :
    edges p lv (nibbleEvents p v) = edges p (replayFrom lv (eventsOf p (dataLeaves v))) (pulseEvents p) := by
  have he : p.e ∉ [p.d0, p.d1, p.d2, p.d3] := pinOf_not_mem_data (ln := .E) hp (by decide)
  rw [nibbleEvents_eq, edges_append, edges_of_e_undriven lv fun _ h => he (drive_mem_dataEvents h), List.nil_append]

/-- Settles O20: the pulse latches what the data drives left. -/
theorem nibbleMakesOneLatch : Obligations.NibbleMakesOneLatch := by
  intro p lv v hp
  rw [edges_nibbleEvents hp, edges_pulseEvents hp, sample_dataEvents hp]

end Sys2Proof.Machine
end

section
/-! The transmitter (41_transmitter.md R120 to R124): what SENDCOMMAND and SENDDATA drive, the two latches of a byte, and
that RW is driven low only. -/

namespace Sys2Proof.Machine

/-! ### The lines of a byte -/

/-- Leaves drive descriptors of the slot's own lines, at the levels the leaves name. -/
theorem drive_mem_eventsOf {p : Pins} {us : List Leaf} {q : Pin} {v : Level} (h : Event.drive q v ∈ eventsOf p us) :
    ∃ ln, Leaf.drive ln v ∈ us ∧ q = pinOf p ln := by
  induction us with
  | nil => cases h
  | cons u us ih =>
    obtain hu | hus := List.mem_append.1 h
    · cases u with
      | drive ln lvl =>
        cases List.mem_singleton.1 hu
        exact ⟨ln, List.mem_cons_self, rfl⟩
      | delay n => cases List.mem_singleton.1 hu
      | curSet row col => cases hu
      | raise c => cases hu
    · obtain ⟨ln, hmem, hq⟩ := ih hus
      exact ⟨ln, List.mem_cons_of_mem u hmem, hq⟩

/-- A descriptor of no line of the slot keeps its level, whatever the leaves. -/
theorem levelOf_other_eventsOf {p : Pins} {q : Pin} (hq : ∀ ln, q ≠ pinOf p ln) (us : List Leaf)
    (lv : List (Pin × Level)) : levelOf (replayFrom lv (eventsOf p us)) q = levelOf lv q :=
  levelOf_replayFrom_of_undriven lv fun _ h => by
    obtain ⟨ln, -, rfl⟩ := drive_mem_eventsOf h
    exact hq ln rfl

/-- Settles O18: both routines perform the leaves of their byte. -/
theorem sendByteFramesTwoNibbles : Obligations.SendByteFramesTwoNibbles := by
  intro s slot b hf hi i rs hrow
  have hsends : isRequest i = false ∧ performedBy i = sendByteLeaves rs b := by
    simp only [List.mem_cons, Prod.mk.injEq, List.not_mem_nil, or_false] at hrow
    obtain ⟨rfl, rfl⟩ | ⟨rfl, rfl⟩ := hrow <;> exact ⟨rfl, rfl⟩
  obtain ⟨hr, hp⟩ := hsends
  obtain ⟨t, hexec, htrace, hlevel, hframe⟩ := exec_sendByte hr hp hf hi
  refine ⟨t, hexec, htrace, rfl, requestedMs_byteEvents .., ?_, fun q hq => ?_, hframe⟩
  · rw [hlevel]
    exact levelOf_e_byteEvents ..
  · rw [hlevel, ← eventsOf_sendByte]
    exact levelOf_other_eventsOf hq ..

/-! ### The latches of a byte -/

/-- The two drives a byte begins with (R120, R121). -/
def controlEvents (p : Pins) (rs : Level) : List Event := [.drive p.rs rs, .drive p.rw .L]

theorem byteEvents_eq (p : Pins) (rs : Level) (b : Byte) :
    byteEvents p rs b =
      controlEvents p rs ++ (nibbleEvents p (b.extractLsb' 4 4) ++ nibbleEvents p (b.extractLsb' 0 4)) := rfl

/-- RS is driven before RW, so its level stands only where the two are distinct. -/
theorem levelOf_controlEvents {p : Pins} (hp : pinsDistinct p = true) (rs : Level) (lv : List (Pin × Level)) :
    levelOf (replayFrom lv (controlEvents p rs)) p.rs = seenOf rs ∧
      levelOf (replayFrom lv (controlEvents p rs)) p.rw = .L := by
  have hne : p.rs ≠ p.rw := (pinOf_injective hp).ne (a₁ := .RS) (a₂ := .RW) nofun
  exact ⟨(levelOf_setLevel_other hne ..).trans (levelOf_setLevel_self ..), levelOf_setLevel_self ..⟩

theorem edges_controlEvents {p : Pins} (hp : pinsDistinct p = true) (rs : Level) (lv : List (Pin × Level)) :
    edges p lv (controlEvents p rs) = [] := by
  have hrs : p.e ≠ p.rs := (pinOf_injective hp).ne (a₁ := .E) (a₂ := .RS) nofun
  have hrw : p.e ≠ p.rw := (pinOf_injective hp).ne (a₁ := .E) (a₂ := .RW) nofun
  exact edges_of_e_undriven lv (by simp [controlEvents, hrs, hrw])

/-- A nibble keeps the levels of RS and RW. -/
theorem levelOf_control_nibbleEvents {p : Pins} (hp : pinsDistinct p = true) (v : Nibble) (lv : List (Pin × Level))
    (ln : Line) (h : ln ∉ [Line.E, .D0, .D1, .D2, .D3]) :
    levelOf (replayFrom lv (nibbleEvents p v)) (pinOf p ln) = levelOf lv (pinOf p ln) :=
  levelOf_other_nibbleEvents ((List.mem_map_of_injective (pinOf_injective hp)).not.2 h) v lv

/-- A nibble sent with RS at `rs` and RW low latches `{rs, 0, v}`. -/
theorem edges_nibble_of_control {p : Pins} (hp : pinsDistinct p = true) (v : Nibble) {lv : List (Pin × Level)}
    {rs : Seen} (hrs : levelOf lv p.rs = rs) (hrw : levelOf lv p.rw = .L) :
    edges p lv (nibbleEvents p v) = [.latch (nibbleTransfer rs v)] := by
  rw [nibbleMakesOneLatch p lv v hp, hrs, hrw]
  rfl

theorem edges_byteEvents {p : Pins} (hp : pinsDistinct p = true) (lv : List (Pin × Level)) (rs : Level) (b : Byte) :
    edges p lv (byteEvents p rs b) =
      [.latch (nibbleTransfer (seenOf rs) (b.extractLsb' 4 4)),
        .latch (nibbleTransfer (seenOf rs) (b.extractLsb' 0 4))] := by
  obtain ⟨hrs, hrw⟩ := levelOf_controlEvents hp rs lv
  have hkeep := levelOf_control_nibbleEvents hp (b.extractLsb' 4 4) (replayFrom lv (controlEvents p rs))
  have hrs' := (hkeep .RS (by decide)).trans hrs
  have hrw' := (hkeep .RW (by decide)).trans hrw
  rw [byteEvents_eq, edges_append, edges_append, edges_controlEvents hp, edges_nibble_of_control hp _ hrs hrw,
    edges_nibble_of_control hp _ hrs' hrw']
  rfl

/-- Settles O21: the control drives make no edge, and each nibble latches under the levels they left. -/
theorem framingLaw : Obligations.FramingLaw := by
  intro p lv rs b hp
  refine ⟨edges_byteEvents hp lv rs b, ?_⟩
  rw [edges_byteEvents hp lv rs b]
  rfl

/-! ### RW is never driven high -/

/-- The active slot, if `active` names one, uses `q` only as RW, and `q` does not read H. -/
structure RwNotHigh (q : Pin) (s : State) : Prop where
  only_rw : ∀ slot ln, instOf s s.active = some slot → ln ≠ .RW → pinOf slot.pins ln ≠ q
  not_high : levelOf s.level q ≠ .H

namespace RwNotHigh

variable {q : Pin} {s t : State}

/-- A drive the block generates is of RW low, or of a line that is not `q`. -/
theorem of_drive (hs : RwNotHigh q s) {ln : Line} {lvl : Level} (hu : leafGenerated (.drive ln lvl) = true)
    {slot : Slot} (hi : instOf s s.active = some slot) : RwNotHigh q (drivePin (pinOf slot.pins ln) lvl s) where
  only_rw := hs.only_rw
  not_high := by
    rw [drivePin_level]
    by_cases hq : q = pinOf slot.pins ln
    · have hln : ln = .RW := by_contra fun hne => hs.only_rw slot ln hi hne hq.symm
      subst hln
      cases lvl with
      | L => rw [hq, levelOf_setLevel_self]; nofun
      | H => cases hu
    · rw [levelOf_setLevel_other hq]
      exact hs.not_high

theorem of_performLeaf (hs : RwNotHigh q s) {u : Leaf} (hu : leafGenerated u = true) (h : performLeaf u s = .next t) :
    RwNotHigh q t := by
  cases u with
  | drive ln lvl =>
    obtain ⟨slot, hi, rfl⟩ := driveLine_next h
    exact hs.of_drive hu hi
  | delay n =>
    obtain ⟨-, rfl⟩ := requestDelay_next h
    exact ⟨hs.only_rw, hs.not_high⟩
  | curSet row col =>
    obtain ⟨slot, hi, rfl⟩ := writeCursor_next h
    obtain ⟨-, hp, -⟩ := instOf_eq_some.1 hi
    refine ⟨fun slot' ln hi' => ?_, hs.not_high⟩
    cases (instOf_setSlot (slot' := { slot with row := row.setWidth 8, col := col }) hi hp).symm.trans hi'
    exact hs.only_rw slot ln hi
  | raise c =>
    cases h
    exact ⟨hs.only_rw, hs.not_high⟩

/-- A micro-op of `pending` or a bus byte. -/
theorem of_exec_performs (hs : RwNotHigh q s) {i : Instr} (hr : isRequest i = false)
    (hgen : ∀ u ∈ performedBy i, leafGenerated u = true) (h : exec i s = .next t) : RwNotHigh q t := by
  rw [exec_performs hr] at h
  obtain ⟨-, hl⟩ := unlessHalted_next h
  exact performLeaves_induction (R := fun s t => RwNotHigh q s → RwNotHigh q t) (fun _ hs => hs)
    (fun _ _ _ h h' hs => h' (h hs)) _ (fun u hu _ _ h hs => hs.of_performLeaf (hgen u hu) h) hl hs

end RwNotHigh

/-- A request drives nothing when it is presented: what it drives is left in `pending` (R180). -/
theorem exec_request_level {i : Instr} {s t : State} (hr : isRequest i = true) (h : exec i s = .next t) :
    t.level = s.level := by
  obtain ⟨-, ⟨-, c, rfl⟩ | ⟨-, p, -, rfl⟩ | ⟨-, a, slot, -, -, rfl⟩ | ⟨hr', -⟩⟩ := exec_next h
  · rfl
  · exact initBody_level p s
  · rfl
  · exact absurd (hr.symm.trans hr') Bool.noConfusion

/-- Settles O53: only a word of `pending` and a bus byte drive lines, and both are of leaves that the block generates. -/
theorem rwNeverDrivenHigh : Obligations.RwNeverDrivenHigh := by
  intro s t q hs h honly hq
  obtain ⟨-, ⟨w, side, rest, -, -, rfl⟩ | ⟨w, side, rest, i, -, hd, hx⟩ | ⟨w, rest, moves, i, -, hp, hd, hx⟩ |
    ⟨w, i, -, hd, hx⟩ | ⟨moves, -, -, rfl⟩ | ⟨moves, -, rfl⟩⟩ := step_next h
  · obtain ⟨c, hc⟩ := rejectRequest_eq { s with host := rest }
    exact hc ▸ hq
  · exact exec_request_level (isRequest_of_decodeRequest hd) hx ▸ hq
  · obtain ⟨u, hu, hgen⟩ := leafOk_iff.1 (hs.pending_ok w (hp ▸ List.mem_cons_self))
    cases hd.symm.trans hu
    have hs' : RwNotHigh q { s with host := moves, pending := rest } := ⟨fun slot ln => honly s.active slot ln, hq⟩
    refine (hs'.of_exec_performs (isRequest_leafInstr u) ?_ hx).not_high
    rw [performedBy_leafInstr]
    exact List.forall_mem_singleton.2 hgen
  · obtain ⟨hr, rs, b, hperf⟩ := performedBy_of_decodeBus hd
    have hs' : RwNotHigh q { s with busIn := none } := ⟨fun slot ln => honly s.active slot ln, hq⟩
    exact (hs'.of_exec_performs hr (hperf ▸ leafGenerated_sendByte rs b) hx).not_high
  · exact hq
  · exact hq

end Sys2Proof.Machine
end

section
/-! A run of `pending` (60_exceptions.md R180): leaves that go on are performed one step each, and with none left the call
returns; so an accepted operation runs its whole expansion. -/

namespace Sys2Proof.Machine

/-- A busy, live block with no bus byte handed in, whose host presents nothing further (R219): `quiet`, after an acceptance. -/
structure Running (s : State) : Prop where
  live : s.fault = none
  busy : s.busy = true
  noBus : s.busIn = none
  noHost : s.host = []

theorem Running.fetch_eq {s : State} (hs : Running s) : fetch s = blockStep s := by
  simp [fetch, hs.live, hs.noBus, hostStep, hs.noHost]

theorem Running.with_pending {s : State} (hs : Running s) (ws : List UopWord) : Running { s with pending := ws } :=
  ⟨hs.live, hs.busy, hs.noBus, hs.noHost⟩

/-! ### One leaf, one step -/

theorem ne_delay_zero_of_goesOn {u : Leaf} (hu : leafGoesOn u = true) : u ≠ .delay 0#12 := by
  rintro rfl
  cases hu

/-- No leaf reads or writes `pending`. -/
theorem performLeaf_with_pending {u : Leaf} {s t : State} (h : performLeaf u s = .next t) (ws : List UopWord) :
    performLeaf u { s with pending := ws } = .next { t with pending := ws } := by
  cases u with
  | drive ln lvl =>
    obtain ⟨slot, hi, rfl⟩ := driveLine_next h
    exact driveLine_of_instOf (s := { s with pending := ws }) hi ln lvl
  | delay n =>
    obtain ⟨hn, rfl⟩ := requestDelay_next h
    exact requestDelay_of_ne hn _
  | curSet row col =>
    obtain ⟨slot, hi, rfl⟩ := writeCursor_next h
    exact writeCursor_of_instOf (s := { s with pending := ws }) hi row col
  | raise c =>
    cases h
    rfl

theorem performLeaf_fault {u : Leaf} (hu : leafGoesOn u = true) {s t : State} (h : performLeaf u s = .next t) :
    t.fault = s.fault := by
  cases u with
  | drive ln lvl => obtain ⟨slot, -, rfl⟩ := driveLine_next h; rfl
  | delay n => obtain ⟨-, rfl⟩ := requestDelay_next h; rfl
  | curSet row col => obtain ⟨slot, -, rfl⟩ := writeCursor_next h; rfl
  | raise c => cases hu

theorem Running.of_performLeaf {s t : State} (hs : Running s) {u : Leaf} (hu : leafGoesOn u = true)
    (h : performLeaf u s = .next t) : Running t := by
  obtain ⟨hbusy, -, -, -, hhost, -, hbus⟩ := performLeaf_keeps h
  exact ⟨(performLeaf_fault hu h).trans hs.live, hbusy.trans hs.busy, hbus.trans hs.noBus, hhost.trans hs.noHost⟩

/-- The step that takes a leaf from `pending` performs it. -/
theorem step_leaf {s t : State} (hs : Running s) {u : Leaf} (hu : leafGoesOn u = true) (h : performLeaf u s = .next t)
    (ws : List UopWord) : step { s with pending := leafWord u :: ws } = .next { t with pending := ws } := by
  have hfetch : fetch { s with pending := leafWord u :: ws } = .instr (leafInstr u) { s with pending := ws } := by
    rw [(hs.with_pending _).fetch_eq]
    simp [blockStep, hs.busy, decodeUop_leafWord u (ne_delay_zero_of_goesOn hu)]
  rw [step, hfetch]
  exact (exec_leafInstr u (s := { s with pending := ws }) hs.live).trans (performLeaf_with_pending h ws)

theorem step_complete {s : State} (hs : Running s) (hp : s.pending = []) : step s = .next (completeRequest s) := by
  rw [step, hs.fetch_eq]
  simp [blockStep, hs.busy, hp]

/-! ### The whole list -/

theorem performLeaves_cons_next {u : Leaf} {us : List Leaf} {s t : State} (h : performLeaves (u :: us) s = .next t) :
    ∃ m, performLeaf u s = .next m ∧ performLeaves us m = .next t := by
  rw [performLeaves] at h
  cases hu : performLeaf u s with
  | next m => exact ⟨m, rfl, by simpa only [hu] using h⟩
  | fault r => simp [hu] at h
  | refused r => simp [hu] at h

/-- Leaves at the head of `pending`, run step by step, do what they do performed at once. -/
theorem run_performLeaves {us : List Leaf} (hgo : ∀ u ∈ us, leafGoesOn u = true) {s t : State} (hs : Running s)
    (h : performLeaves us s = .next t) (ws : List UopWord) (k : Nat) :
    Sys2Proof.core.run (us.length + k) { s with pending := us.map leafWord ++ ws } =
      Sys2Proof.core.run k { t with pending := ws } := by
  induction us generalizing s with
  | nil =>
    cases h
    rw [List.length_nil, Nat.zero_add]
    rfl
  | cons u us ih =>
    obtain ⟨hu, hus⟩ := List.forall_mem_cons.1 hgo
    obtain ⟨m, hm, ht⟩ := performLeaves_cons_next h
    rw [List.length_cons, Nat.add_right_comm, List.map_cons, List.cons_append, run_succ (step_leaf hs hu hm _)]
    exact ih hus (hs.of_performLeaf hu hm) ht

/-- With nothing else in `pending`, one more step returns the call (R180). -/
theorem run_to_completion {us : List Leaf} (hgo : ∀ u ∈ us, leafGoesOn u = true) {s : State} {slot : Slot}
    (hs : Running s) (hp : s.pending = us.map leafWord) (hi : instOf s s.active = some slot) :
    Sys2Proof.core.run (us.length + 1) s = .next (completeRequest { afterLeaves slot us s with pending := [] }) := by
  have hrun := run_performLeaves hgo hs (performLeaves_goesOn us hgo hi) [] 1
  rw [List.append_nil, ← hp] at hrun
  have hdone : Running { afterLeaves slot us s with pending := [] } := ⟨hs.live, hs.busy, hs.noBus, hs.noHost⟩
  rw [hrun, run_succ (step_complete hdone rfl)]
  rfl

/-- A request whose expansion only holds leaves that go on runs to the end of it. -/
theorem runsTo_of_expansion {i : Instr} {h : Handle} {slot : Slot} {us : List Leaf} {s : State}
    (hh : requestHandle i = some h) (hus : expansionOf i slot = us) (hgo : ∀ u ∈ us, leafGoesOn u = true) (hq : quiet s)
    (hi : instOf s h = some slot) :
    RunsTo i h slot (us.length + 1) (eventsOf slot.pins us) (cursorAfter slot.row slot.col us).1
      (cursorAfter slot.row slot.col us).2 s := by
  obtain ⟨hf, hb, hbus, hhost⟩ := hq
  subst hus
  refine ⟨_, (exec_request hh s).trans (acceptRequest_ready _ hf hb hi), ?_⟩
  have hrun : Running { s with busy := true, active := h, pending := (expansionOf i slot).map leafWord } :=
    ⟨hf, rfl, hbus, hhost⟩
  rw [run_to_completion hgo hrun rfl hi, hb]
  rfl

end Sys2Proof.Machine
end

section
/-! The initializer (42_initializer.md R130 to R141): the slot INIT takes; Begin's expansion, its counts and its run; the
transfers it latches and the levels it leaves. -/

namespace Sys2Proof.Machine

/-! ### INIT -/

theorem slotFree_eq_true {n : Nat} {insts : Vector Slot 15} {h : Fin 15} :
    slotFree n insts h = true ↔ insts[h].present = false ∧ h.val < n := by
  simp [slotFree]

theorem slotFree_of_present {n : Nat} {insts : Vector Slot 15} {h : Fin 15} (hp : insts[h].present = true) :
    slotFree n insts h = false := by
  rw [slotFree, hp]
  rfl

theorem lowestFree_eq_none {n : Nat} {insts : Vector Slot 15} :
    lowestFree n insts = none ↔ ∀ k : Fin 15, k.val < n → insts[k].present = true := by
  simp only [lowestFree, List.find?_eq_none, List.mem_finRange, true_imp_iff, slotFree_eq_true, not_and', Bool.not_eq_false]

/-- `min(free)` (R130): `h` is free, and no slot below it is. -/
theorem lowestFree_eq_some {n : Nat} {insts : Vector Slot 15} {h : Fin 15} :
    lowestFree n insts = some h ↔
      slotFree n insts h = true ∧ ∀ k : Fin 15, k < h → slotFree n insts k = false := by
  rw [lowestFree, List.find?_eq_some_iff_getElem]
  refine and_congr_right fun _ => ⟨?_, fun hbelow => ⟨h.val, by simp, by simp, fun j hj => ?_⟩⟩
  · rintro ⟨i, hi, rfl, hbelow⟩ k hk
    simpa using hbelow k.val (by simpa [Fin.lt_def] using hk)
  · simpa using hbelow ⟨j, hj.trans h.isLt⟩ hj

/-- Settles O25: `min(free)` is none, or the free slot with no free one below it, and the draw is a case split. -/
theorem initAllocatesLowestFreeSlot : Obligations.InitAllocatesLowestFreeSlot := by
  intro s p hf hb
  have hexec : exec (.init p) s = .next (initBody p s) := by simp [exec_init, hf, hb]
  refine ⟨fun hall => ?_, fun h hlt habsent hbelow => ?_⟩
  · rw [hexec, initBody, lowestFree_eq_none.2 hall]
    rfl
  · have hlow : lowestFree Config.instanceCount s.insts = some h :=
      lowestFree_eq_some.2 ⟨slotFree_eq_true.2 ⟨habsent, hlt⟩, fun k hk => slotFree_of_present (hbelow k hk)⟩
    rw [hexec, initBody, hlow]
    cases Config.drawAlloc s.drawCount with
    | false => rfl
    | true => rfl

/-! ### Begin's expansion -/

theorem leafGoesOn_config (b : Byte) : ∀ u ∈ configLeaves b, leafGoesOn u = true := by
  rw [configLeaves, List.forall_mem_append]
  exact ⟨leafGoesOn_sendByte .L b, by decide⟩

theorem leafGoesOn_begin : ∀ u ∈ beginLeaves, leafGoesOn u = true := by
  simp only [beginLeaves, List.forall_mem_append]
  exact ⟨⟨⟨⟨⟨⟨by decide, leafGoesOn_config _⟩, leafGoesOn_config _⟩, leafGoesOn_config _⟩,
    leafGoesOn_body .L _ _ _⟩, leafGoesOn_body .L _ _ _⟩, by decide⟩

/-- Home's body is the last that writes the cursor. -/
theorem cursorAfter_begin (r c : Byte) : cursorAfter r c beginLeaves = (0#8, 0#8) := by
  rw [beginLeaves, cursorAfter_append, cursorAfter_append _ _ _ homeLeaves, homeLeaves, sendCommandLeaves,
    cursorAfter_body]
  rfl

theorem length_sendByteLeaves (rs : Level) (b : Byte) : (sendByteLeaves rs b).length = 20 := rfl

theorem length_beginLeaves : beginLeaves.length = 112 := by
  simp [beginLeaves, beginStep1, configLeaves, clearScreenLeaves, homeLeaves, sendCommandLeaves, length_sendByteLeaves]

theorem length_byteEvents (p : Pins) (rs : Level) (b : Byte) : (byteEvents p rs b).length = 20 := rfl

theorem driveEvents_byteEvents (p : Pins) (rs : Level) (b : Byte) : driveEvents (byteEvents p rs b) = 16 := rfl

theorem length_beginEvents (p : Pins) : (beginEvents p).length = 110 := by
  simp [beginEvents, length_byteEvents]

theorem driveEvents_beginEvents (p : Pins) : driveEvents (beginEvents p) = 83 := by
  simp [beginEvents, driveEvents_byteEvents, driveEvents]

/-- Settles O28: five bytes of 20 leaves each, with step 1, the settle delays and the two cursor writes. -/
theorem beginCounts : Obligations.BeginCounts :=
  ⟨length_beginLeaves, fun p => ⟨eventsOf_begin p, length_beginEvents p, delayEvents_beginEvents p,
    driveEvents_beginEvents p, requestedMs_beginEvents p⟩⟩

/-- Settles O26: Begin's expansion does not read the slot, and no leaf of it stops the run. -/
theorem beginRunsItsSequence : Obligations.BeginRunsItsSequence := by
  intro s h slot hq hi
  refine ⟨?_, length_beginEvents _⟩
  have hrun := runsTo_of_expansion (i := .beginInit h) (us := beginLeaves) rfl rfl leafGoesOn_begin hq hi
  rwa [length_beginLeaves, eventsOf_begin, cursorAfter_begin] at hrun

/-! ### What Begin latches -/

/-- The ten transfers of R139: the nibbles of Begin's five command bytes (log entry 13). -/
def beginTransfers : List Transfer :=
  [0x2#4, 0x8#4, 0x0#4, 0xF#4, 0x0#4, 0x6#4, 0x0#4, 0x1#4, 0x0#4, 0x2#4].map (nibbleTransfer .L)

theorem edges_delay (p : Pins) (lv : List (Pin × Level)) (n : Nat) : edges p lv [.delay n] = [] := rfl

/-- Of step 1 only its first drive can make an edge. -/
theorem edges_step1 {p : Pins} (hp : pinsDistinct p = true) (lv : List (Pin × Level)) :
    edges p lv [.drive p.e .L, .drive p.rs .L, .drive p.rw .L, .delay 10] = edgeOf p lv (.drive p.e .L) := by
  have hsplit : [.drive p.e .L, .drive p.rs .L, .drive p.rw .L, .delay 10] =
      [.drive p.e .L] ++ controlEvents p .L ++ [.delay 10] := rfl
  rw [hsplit, edges_append, edges_append, edges_controlEvents hp, edges_delay]
  simp [edges]

theorem edges_beginEvents {p : Pins} (hp : pinsDistinct p = true) (lv : List (Pin × Level)) :
    edges p lv (beginEvents p) = edgeOf p lv (.drive p.e .L) ++ beginTransfers.map .latch := by
  simp only [beginEvents, edges_append, edges_step1 hp, edges_byteEvents hp, edges_delay, List.append_nil,
    List.append_assoc]
  rfl

/-- Sure edges have one reading. -/
theorem readings_map_latch (ts : List Transfer) : readings (ts.map .latch) = [ts] := by
  induction ts with
  | nil => rfl
  | cons t ts ih => rw [List.map_cons, readings, ih]; rfl

/-- Settles O22: what E was before step 1 decides whether its first drive is no edge, a sure one or a possible one; the ten
latches after it are sure. -/
theorem beginLatchSequence : Obligations.BeginLatchSequence := by
  intro p lv hp ten
  have hten : readings (beginTransfers.map .latch) = [ten] := readings_map_latch _
  rw [edges_beginEvents hp]
  refine ⟨fun he => ?_, fun he => ?_, fun he => ?_⟩
  · simp [edgeOf, he, hten]
  · simp [edgeOf, he, readings, hten]
  · simp [edgeOf, he, readings, hten]

/-! ### The levels Begin leaves -/

/-- A byte leaves RS and RW as its first two drives set them: its nibbles drive neither. -/
theorem levelOf_control_byteEvents {p : Pins} (hp : pinsDistinct p = true) (rs : Level) (b : Byte)
    (lv : List (Pin × Level)) :
    levelOf (replayFrom lv (byteEvents p rs b)) p.rs = seenOf rs ∧
      levelOf (replayFrom lv (byteEvents p rs b)) p.rw = .L := by
  obtain ⟨hrs, hrw⟩ := levelOf_controlEvents hp rs lv
  have hkeep : ∀ ln, ln ∉ [Line.E, .D0, .D1, .D2, .D3] →
      levelOf (replayFrom lv (byteEvents p rs b)) (pinOf p ln) =
        levelOf (replayFrom lv (controlEvents p rs)) (pinOf p ln) := fun ln hln => by
    rw [byteEvents_eq, replayFrom_append, replayFrom_append, levelOf_control_nibbleEvents hp _ _ ln hln,
      levelOf_control_nibbleEvents hp _ _ ln hln]
  exact ⟨(hkeep .RS (by decide)).trans hrs, (hkeep .RW (by decide)).trans hrw⟩

/-- The low nibble is the last on the data lines. -/
theorem levelOf_data_byteEvents {p : Pins} (hp : pinsDistinct p = true) (rs : Level) (b : Byte)
    (lv : List (Pin × Level)) {ln : Line} {i : Nat}
    (h : (ln, i) ∈ [(Line.D0, 0), (Line.D1, 1), (Line.D2, 2), (Line.D3, 3)]) :
    levelOf (replayFrom lv (byteEvents p rs b)) (pinOf p ln) = if (b.extractLsb' 0 4).getLsbD i then .H else .L := by
  rw [byteEvents, replayFrom_append]
  exact levelOf_data_nibbleEvents hp _ _ h

/-- Nothing is driven after Home's byte. -/
theorem replayFrom_beginEvents (p : Pins) (lv : List (Pin × Level)) :
    ∃ lv', replayFrom lv (beginEvents p) = replayFrom lv' (byteEvents p .L 0x02#8) := by
  simp only [beginEvents, replayFrom_append, replayFrom_delay]
  exact ⟨_, rfl⟩

/-- Settles O27: the lines stand as the byte 0x02 left them. -/
theorem beginLeavesLines : Obligations.BeginLeavesLines := by
  intro p lv hp ln v hrow
  obtain ⟨lv', hlast⟩ := replayFrom_beginEvents p lv
  obtain ⟨hrs, hrw⟩ := levelOf_control_byteEvents hp .L 0x02#8 lv'
  have hdata := @levelOf_data_byteEvents p hp .L 0x02#8 lv'
  rw [hlast]
  simp only [List.mem_cons, Prod.mk.injEq, List.not_mem_nil, or_false] at hrow
  obtain ⟨rfl, rfl⟩ | ⟨rfl, rfl⟩ | ⟨rfl, rfl⟩ | ⟨rfl, rfl⟩ | ⟨rfl, rfl⟩ | ⟨rfl, rfl⟩ | ⟨rfl, rfl⟩ := hrow
  · exact levelOf_e_byteEvents ..
  · exact hrs
  · exact hrw
  · exact hdata (ln := .D0) (i := 0) (by decide)
  · exact hdata (ln := .D1) (i := 1) (by decide)
  · exact hdata (ln := .D2) (i := 2) (by decide)
  · exact hdata (ln := .D3) (i := 3) (by decide)

end Sys2Proof.Machine
end

section
/-! Cursor arithmetic (43_cursor_output.md R155, R156, R162, R163): the reduced operands of SetCursor, and PutChar's advance
on the cursor and on its index. -/

namespace Sys2Proof.Machine

/-! ### Reduced operands -/

/-- What a byte is reduced to is still a byte. -/
theorem toNat_ofNat_mod (b : Byte) (n : Nat) : (BitVec.ofNat 8 (b.toNat % n)).toNat = b.toNat % n :=
  (BitVec.toNat_ofNat _ _).trans (Nat.mod_eq_of_lt ((Nat.mod_le _ _).trans_lt b.isLt))

theorem wrapRow_reduced (row : Byte) : wrapRow (BitVec.ofNat 8 (wrapRow row)) = wrapRow row := by
  rw [wrapRow, wrapRow, toNat_ofNat_mod, Nat.mod_mod]

theorem wrapColumn_reduced (dw : Nat) (column : Byte) :
    wrapColumn dw (BitVec.ofNat 8 (wrapColumn dw column)) = wrapColumn dw column := by
  rw [wrapColumn, wrapColumn, toNat_ofNat_mod, Nat.mod_mod]

/-- SETCURSOR reads its operands reduced only. -/
theorem exec_setCursor_congr {row row' column column' : Byte} (hrow : wrapRow row = wrapRow row')
    (hcol : wrapColumn Config.displayWidth column = wrapColumn Config.displayWidth column') (h : Handle) (s : State) :
    exec (.setCursor h row column) s = exec (.setCursor h row' column') s := by
  have hexp : expansionOf (.setCursor h row column) = expansionOf (.setCursor h row' column') := by
    funext _
    simp only [expansionOf, setCursorLeaves, hrow, hcol]
  rw [exec_request rfl, exec_request rfl, hexp]

/-- Settles O33: a column reduced twice is the column reduced once. -/
theorem setCursorWrapsColumn : Obligations.SetCursorWrapsColumn :=
  ⟨fun s h _ column => exec_setCursor_congr rfl (wrapColumn_reduced Config.displayWidth column).symm h s, by decide⟩

/-- Settles O34: a row reduced twice is the row reduced once. -/
theorem setCursorWrapsRow : Obligations.SetCursorWrapsRow :=
  fun s h row _ => exec_setCursor_congr (wrapRow_reduced row).symm rfl h s

/-! ### The advance -/

theorem toNat_add_one {b : Byte} (h : b.toNat < 255) : (b + 1#8).toNat = b.toNat + 1 :=
  BitVec.toNat_add_of_lt (Nat.succ_lt_succ h)

/-- R162 on a display: no byte wraps. -/
theorem toNat_advance {dw : Nat} {r c : Byte} (hdw : dw ≤ 64) (h : cursorOk dw r c = true) :
    ((advance dw r c).1.toNat, (advance dw r c).2.toNat) =
      if c.toNat = dw - 1 then (if r.toNat = 1 then (0, 0) else (r.toNat + 1, 0)) else (r.toNat, c.toNat + 1) := by
  obtain ⟨hr, hc⟩ := cursorOk_iff.1 h
  have hrow : (r + 1#8).toNat = r.toNat + 1 := toNat_add_one (by omega)
  have hcol : (c + 1#8).toNat = c.toNat + 1 := toNat_add_one (by omega)
  by_cases hlast : c.toNat = dw - 1
  · by_cases hr1 : r.toNat = 1
    · simp [advance, Config.displayRows, hlast, hr1]
    · simp [advance, Config.displayRows, hlast, hr1, hrow]
  · simp [advance, hlast, hcol]

/-- The row is 0 or 1. -/
theorem row_mul_le {dw : Nat} {r c : Byte} (h : cursorOk dw r c = true) : r.toNat * dw ≤ dw :=
  (Nat.mul_le_mul_right dw (Nat.le_of_lt_succ (cursorOk_iff.1 h).1)).trans_eq (Nat.one_mul dw)

theorem cursorIndex_lt {dw : Nat} {r c : Byte} (h : cursorOk dw r c = true) : cursorIndex dw r c < dw * 2 := by
  have hrow := row_mul_le h
  obtain ⟨-, hc⟩ := cursorOk_iff.1 h
  unfold cursorIndex
  omega

/-- R163: one further on the circle of the display's cells. -/
theorem cursorIndex_advance {dw : Nat} {r c : Byte} (hdw : dw ≤ 64) (h : cursorOk dw r c = true) :
    cursorIndex dw (advance dw r c).1 (advance dw r c).2 = (cursorIndex dw r c + 1) % (dw * 2) := by
  have hrow := row_mul_le h
  have hadv := toNat_advance hdw h
  obtain ⟨hr, hc⟩ := cursorOk_iff.1 h
  unfold cursorIndex
  split at hadv
  next hlast =>
    split at hadv
    next hr1 =>
      obtain ⟨hr', hc'⟩ := Prod.mk.inj hadv
      have hwrap : r.toNat * dw + c.toNat + 1 = dw * 2 := by
        rw [hr1]
        omega
      rw [hr', hc', hwrap, Nat.mod_self, Nat.zero_mul]
    next hr1 =>
      obtain ⟨hr', hc'⟩ := Prod.mk.inj hadv
      have hr0 : r.toNat = 0 := by omega
      rw [hr', hc', hr0, Nat.mod_eq_of_lt] <;> omega
  next hcol =>
    obtain ⟨hr', hc'⟩ := Prod.mk.inj hadv
    have hin : r.toNat * dw + c.toNat + 1 < dw * 2 := by omega
    rw [hr', hc', Nat.mod_eq_of_lt hin, Nat.add_assoc]

/-- Settles O36: the advance moves the index on by one, and stays on the display. -/
theorem advanceIsCircular : Obligations.AdvanceIsCircular := fun _ _ _ _ hdw h =>
  ⟨cursorIndex_advance hdw h, cursorOk_advance h⟩

end Sys2Proof.Machine
end

section
/-! The one-byte bodies (43_cursor_output.md R150 to R164, R169): CLEARSCREEN, HOME, SETCURSOR and PUTCHAR run one body each,
a byte with its wait and the cursor it leaves; HOME twice; and CURSET by itself. -/

namespace Sys2Proof.Machine

/-! ### A body's run -/

/-- The row field of CURSET holds a row of the display (R81, R169). -/
theorem row_of_field {r : Byte} (hr : r.toNat < 2) : (r.setWidth 4).setWidth 8 = r := by
  apply BitVec.eq_of_toNat_eq
  rw [BitVec.toNat_setWidth, BitVec.toNat_setWidth]
  omega

/-- A request whose expansion is one body runs to its end, 22 leaves and one step to return. -/
theorem runsTo_of_body {i : Instr} {h : Handle} {slot : Slot} {rs : Level} {b r c : Byte} {s : State}
    (hh : requestHandle i = some h)
    (hus : expansionOf i slot = sendByteLeaves rs b ++ [.delay Config.tCmd, curSetLeaf r c]) (hr : r.toNat < 2)
    (hq : quiet s) (hi : instOf s h = some slot) :
    RunsTo i h slot 23 (byteEvents slot.pins rs b ++ [.delay 1]) r c s := by
  have hrun := runsTo_of_expansion hh hus (leafGoesOn_body rs b r c) hq hi
  rwa [eventsOf_body, cursorAfter_body, row_of_field hr] at hrun

/-- Settles O29: its expansion is the body of the clear command. -/
theorem clearScreenRuns : Obligations.ClearScreenRuns := fun _ _ _ hq hi =>
  runsTo_of_body rfl rfl Nat.zero_lt_two hq hi

/-- Settles O30: its expansion is the body of the return-home command. -/
theorem homeRuns : Obligations.HomeRuns := fun _ _ _ hq hi =>
  runsTo_of_body rfl rfl Nat.zero_lt_two hq hi

/-- R157: the address of a cell is its column, and the base of row 1 on that row; no sum of them leaves its 7 bits. -/
theorem toNat_ddramAddr {dw : Nat} (hpos : 0 < dw) (hdw : dw ≤ 64) (row column : Byte) :
    (ddramAddr (wrapRow row) (wrapColumn dw column)).toNat =
      column.toNat % dw + if row.toNat % 2 = 1 then 0x40 else 0 := by
  have hcol : column.toNat % dw < dw := Nat.mod_lt _ hpos
  have hbase : (if row.toNat % 2 = 1 then 0x40 else 0) ≤ 0x40 := by
    split <;> decide
  refine (BitVec.toNat_ofNat _ _).trans (Nat.mod_eq_of_lt ?_)
  exact Nat.add_lt_add_of_lt_of_le (hcol.trans_le hdw) hbase

/-- Settles O32: its expansion is the body of the address command, with the reduced operands as the cursor. -/
theorem setCursorRuns : Obligations.SetCursorRuns := by
  intro s h slot row column hq hi
  have haddr := toNat_ddramAddr Config.displayWidth_pos Config.displayWidth_le row column
  rw [← haddr, ← setDdramByte_eq_ofNat]
  have hrow : (BitVec.ofNat 8 (row.toNat % 2)).toNat < 2 := by
    rw [toNat_ofNat_mod]
    exact Nat.mod_lt _ Nat.zero_lt_two
  exact runsTo_of_body rfl rfl hrow hq hi

/-- Settles O35: its expansion is the body of its byte, which leaves the cursor one cell further. -/
theorem putCharRuns : Obligations.PutCharRuns := by
  intro s h slot b hq hi hc
  obtain ⟨hrow, -⟩ := cursorOk_iff.1 (cursorOk_advance hc)
  exact ⟨_, _, runsTo_of_body rfl rfl hrow hq hi, toNat_advance Config.displayWidth_le hc⟩

/-- Settles O37: its events are those of one data byte and a wait, and a data byte drives RS high. -/
theorem putCharSendsNoCommand : Obligations.PutCharSendsNoCommand := by
  intro p dw r c b
  refine ⟨eventsOf_body .., ?_⟩
  simp [putCharLeaves, sendDataLeaves, sendByteLeaves, writeNibbleLeaves, enablePulseLeaves, curSetLeaf]

/-! ### HOME twice -/

/-- What a list of events leaves on a line it drives does not depend on the levels before. -/
theorem levelOf_replayFrom_of_driven {q : Pin} {v : Level} {es : List Event} (h : Event.drive q v ∈ es)
    (lv lv' : List (Pin × Level)) : levelOf (replayFrom lv es) q = levelOf (replayFrom lv' es) q := by
  induction es generalizing v lv lv' with
  | nil => cases h
  | cons e es ih =>
    by_cases htail : ∃ u, Event.drive q u ∈ es
    · obtain ⟨u, hu⟩ := htail
      exact ih hu _ _
    · rw [not_exists] at htail
      obtain rfl | hmem := List.mem_cons.1 h
      · rw [replayFrom, replayFrom, levelOf_replayFrom_of_undriven _ htail, levelOf_replayFrom_of_undriven _ htail,
          levelsAfter, levelsAfter, levelOf_setLevel_self, levelOf_setLevel_self]
      · exact absurd hmem (htail v)

/-- The same events a second time change no line. -/
theorem levelOf_replayFrom_twice (lv : List (Pin × Level)) (es : List Event) (q : Pin) :
    levelOf (replayFrom (replayFrom lv es) es) q = levelOf (replayFrom lv es) q := by
  by_cases hdriven : ∃ v, Event.drive q v ∈ es
  · obtain ⟨v, hv⟩ := hdriven
    exact levelOf_replayFrom_of_driven hv _ _
  · exact levelOf_replayFrom_of_undriven _ (not_exists.1 hdriven)

/-- What a completed call leaves: a quiet block again, with the new cursor in the slot. -/
theorem RunsTo.result {i : Instr} {h : Handle} {slot : Slot} {k : Nat} {evs : List Event} {r c : Byte} {s : State}
    (hrun : RunsTo i h slot k evs r c s) (hq : quiet s) (hi : instOf s h = some slot) :
    ∃ s1 t, exec i s = .next s1 ∧ Sys2Proof.core.run k s1 = .next t ∧ quiet t ∧
      instOf t h = some { slot with row := r, col := c } ∧ t.trace = s.trace ++ evs ∧
      t.level = replayFrom s.level evs ∧
      t.insts = s.insts.setIfInBounds h.toNat { slot with row := r, col := c } := by
  obtain ⟨s1, hexec, hto⟩ := hrun
  have hslot := instOf_setSlot (slot' := { slot with row := r, col := c }) hi (instOf_eq_some.1 hi).2.1
  exact ⟨s1, _, hexec, hto, hq, hslot, rfl, rfl, rfl⟩

/-- Settles O31: after the first HOME the block is quiet again with the cursor at (0,0), so the second one runs the same. -/
theorem homeIsIdempotent : Obligations.HomeIsIdempotent := by
  intro s h slot hq hi
  obtain ⟨s1, t1, hexec1, hrun1, hq1, hi1, htrace1, hlevel1, hinsts1⟩ := (homeRuns s h slot hq hi).result hq hi
  obtain ⟨s2, t2, hexec2, hrun2, -, -, htrace2, hlevel2, hinsts2⟩ := (homeRuns t1 h _ hq1 hi1).result hq1 hi1
  refine ⟨s1, t1, s2, t2, _, hexec1, hrun1, hexec2, hrun2, htrace1, htrace2, ?_, fun q => ?_, _, hi1, rfl, rfl⟩
  · rw [hinsts2, hinsts1, Vector.setIfInBounds_setIfInBounds]
  · rw [hlevel2, hlevel1]
    exact (levelOf_replayFrom_twice ..).symm

/-! ### CURSET -/

theorem curSetWord_eq_or (row : BitVec 4) (col : Byte) :
    curSetWord row col = 0x6000#16 ||| (row.setWidth 16 <<< 8) ||| col.setWidth 16 := by
  apply BitVec.eq_of_getLsbD_eq
  intro i hi
  have hb : (curSetWord row col).getLsbD i = _ := append_bit (0x6#4 ++ row) col i
  rw [hb, append_bit]
  interval_cases i <;> simp

/-- Settles O41: CURSET writes the slot that `active` names. -/
theorem curSetWritesCursor : Obligations.CurSetWritesCursor := by
  intro s slot row col hf hi
  have hexec : exec (.curSet row col) s =
      .next (setSlot s.active { slot with row := row.setWidth 8, col := col } s) :=
    (exec_leafInstr (.curSet row col) hf).trans (writeCursor_of_instOf hi row col)
  refine ⟨congrArg Code.uop (curSetWord_eq_or row col), _, hexec, ?_, fun k hk => ?_, rfl⟩
  · exact instOf_setSlot hi (instOf_eq_some.1 hi).2.1
  · exact Vector.getElem?_setIfInBounds_ne hk.symm

end Sys2Proof.Machine
end

section
/-! PutStr (43_cursor_output.md R166 to R168): its expansion is the bodies of the characters before the first zero, and RAISE
where there is no zero; what the bodies send, latch and leave as the cursor; the run with a zero, and the run without. -/

namespace Sys2Proof.Machine

/-! ### The bodies -/

/-- The PutChar bodies of the characters `cs`, each from the cursor the one before left (R168). -/
def putStrBodies (dw : Nat) (r c : Byte) : List Byte → List Leaf
  | [] => []
  | b :: cs => putCharLeaves dw r c b ++ putStrBodies dw (advance dw r c).1 (advance dw r c).2 cs

/-- The events of one character: its byte as data, and 1 ms (R162). -/
def charEvents (p : Pins) (b : Byte) : List Event := byteEvents p .H b ++ [.delay 1]

theorem beforeZero_cons {b : Byte} (hb : b ≠ 0#8) (str : List Byte) : beforeZero (b :: str) = b :: beforeZero str :=
  List.takeWhile_cons_of_pos (bne_iff_ne.2 hb)

/-- R166: the loop is the bodies of the characters before the first zero, and then the fault where there is no zero. -/
theorem putStrLeaves_eq (dw : Nat) (r c : Byte) (str : List Byte) :
    putStrLeaves dw r c str =
      putStrBodies dw r c (beforeZero str) ++ if 0#8 ∈ str then [] else [.raise .stringUnterminated] := by
  induction str generalizing r c with
  | nil => rfl
  | cons b str ih =>
    by_cases hb : b = 0#8
    · simp [putStrLeaves, hb, beforeZero, putStrBodies]
    · have hmem : 0#8 ∈ b :: str ↔ 0#8 ∈ str := List.mem_cons.trans (or_iff_right (Ne.symm hb))
      rw [putStrLeaves, if_neg hb, ih, beforeZero_cons hb, putStrBodies, List.append_assoc]
      simp only [hmem]

theorem putStrLeaves_of_zero {str : List Byte} (hz : 0#8 ∈ str) (dw : Nat) (r c : Byte) :
    putStrLeaves dw r c str = putStrBodies dw r c (beforeZero str) := by
  rw [putStrLeaves_eq, if_pos hz, List.append_nil]

theorem putStrLeaves_of_no_zero {str : List Byte} (hz : 0#8 ∉ str) (dw : Nat) (r c : Byte) :
    putStrLeaves dw r c str = putStrBodies dw r c str ++ [.raise .stringUnterminated] := by
  rw [putStrLeaves_eq, if_neg hz, beforeZero_eq_self hz]

/-- Settles O40: the rest of the sequence at `i` is empty at its end, and begins with the byte MemRead answers before it. -/
theorem putStrReadsByMemRead : Obligations.PutStrReadsByMemRead := by
  intro dw r c str i hi
  obtain hlt | rfl := Nat.lt_or_eq_of_le hi
  · have hread : memRead str i = .ok str[i] := by simp [memRead, hlt]
    rw [List.drop_eq_getElem_cons hlt, hread]
    rfl
  · have hread : memRead str str.length = .error .stringUnterminated := by simp [memRead]
    rw [List.drop_length, hread]
    rfl

/-! ### What the bodies do -/

theorem eventsOf_putStrBodies (p : Pins) (dw : Nat) (r c : Byte) (cs : List Byte) :
    eventsOf p (putStrBodies dw r c cs) = cs.flatMap (charEvents p) := by
  induction cs generalizing r c with
  | nil => rfl
  | cons b cs ih =>
    rw [putStrBodies, eventsOf_append, ih, putCharLeaves, sendDataLeaves, eventsOf_body]
    rfl

theorem length_putStrBodies (dw : Nat) (r c : Byte) (cs : List Byte) :
    (putStrBodies dw r c cs).length = 22 * cs.length := by
  induction cs generalizing r c with
  | nil => rfl
  | cons b cs ih =>
    have hbody : (putCharLeaves dw r c b).length = 22 := rfl
    rw [putStrBodies, List.length_append, ih, hbody, List.length_cons]
    omega

theorem leafGoesOn_putStrBodies (dw : Nat) (r c : Byte) (cs : List Byte) :
    ∀ u ∈ putStrBodies dw r c cs, leafGoesOn u = true := by
  induction cs generalizing r c with
  | nil => exact List.forall_mem_nil _
  | cons b cs ih => exact List.forall_mem_append.2 ⟨leafGoesOn_body .H b _ _, ih _ _⟩

/-- R168: on a display the bodies leave the cursor as many cells further as there are characters. -/
theorem cursorAfter_putStrBodies {dw : Nat} (hdw : dw ≤ 64) {r c : Byte} (h : cursorOk dw r c = true) (cs : List Byte) :
    cursorIndex dw (cursorAfter r c (putStrBodies dw r c cs)).1 (cursorAfter r c (putStrBodies dw r c cs)).2 =
        (cursorIndex dw r c + cs.length) % (dw * 2) ∧
      cursorOk dw (cursorAfter r c (putStrBodies dw r c cs)).1 (cursorAfter r c (putStrBodies dw r c cs)).2 = true := by
  induction cs generalizing r c with
  | nil => exact ⟨(Nat.mod_eq_of_lt (cursorIndex_lt h)).symm, h⟩
  | cons b cs ih =>
    have hadv := cursorOk_advance h
    have hbody : cursorAfter r c (putCharLeaves dw r c b) = advance dw r c := by
      rw [putCharLeaves, sendDataLeaves, cursorAfter_body, row_of_field (cursorOk_iff.1 hadv).1]
    obtain ⟨hindex, hok⟩ := ih hadv
    rw [putStrBodies, cursorAfter_append, hbody]
    refine ⟨?_, hok⟩
    rw [hindex, cursorIndex_advance hdw h, Nat.mod_add_mod, Nat.add_assoc, Nat.add_comm 1, List.length_cons]

/-! ### What is latched -/

theorem edges_chars {p : Pins} (hp : pinsDistinct p = true) (lv : List (Pin × Level)) (cs : List Byte) :
    edges p lv (cs.flatMap (charEvents p)) = (cs.flatMap (byteTransfers .H)).map .latch := by
  induction cs generalizing lv with
  | nil => rfl
  | cons b cs ih =>
    rw [List.flatMap_cons, List.flatMap_cons, List.map_append, edges_append, ih, charEvents, edges_append,
      edges_byteEvents hp, edges_delay]
    rfl

/-- The fault at the end of a sequence with no zero has no event. -/
theorem eventsOf_putStr (p : Pins) (dw : Nat) (r c : Byte) (str : List Byte) :
    eventsOf p (putStrLeaves dw r c str) = (beforeZero str).flatMap (charEvents p) := by
  have hend : eventsOf p (if 0#8 ∈ str then [] else [.raise .stringUnterminated]) = [] := by
    split <;> rfl
  rw [putStrLeaves_eq, eventsOf_append, hend, List.append_nil, eventsOf_putStrBodies]

/-- Settles O23: each character makes the two sure latches of its byte, and nothing else makes an edge. -/
theorem putStrLatchesItsCharacters : Obligations.PutStrLatchesItsCharacters := by
  intro p lv dw r c str hp
  rw [eventsOf_putStr, edges_chars hp, readings_map_latch]

/-! ### The runs -/

/-- Settles O38: with a zero the expansion is the bodies alone, none of which stops the run. -/
theorem putStrRuns : Obligations.PutStrRuns := by
  intro s h slot str hq hi hc hz
  have hrun := runsTo_of_expansion (i := .putStr h str) rfl (putStrLeaves_of_zero hz ..)
    (leafGoesOn_putStrBodies _ _ _ _) hq hi
  rw [length_putStrBodies, eventsOf_putStrBodies] at hrun
  exact ⟨_, _, hrun, cursorAfter_putStrBodies Config.displayWidth_le hc _⟩

/-- The step that takes a RAISE from `pending` halts the block, with the rest of `pending` as it was (R185). -/
theorem step_raise {s : State} (hs : Running s) (c : FaultCode) (ws : List UopWord) :
    step { s with pending := leafWord (.raise c) :: ws } = .next (raiseFault c { s with pending := ws }) := by
  have hfetch : fetch { s with pending := leafWord (.raise c) :: ws } =
      .instr (leafInstr (.raise c)) { s with pending := ws } := by
    rw [(hs.with_pending _).fetch_eq]
    simp [blockStep, hs.busy, decodeUop_leafWord (.raise c) nofun]
  rw [step, hfetch]
  exact exec_leafInstr (.raise c) (s := { s with pending := ws }) hs.live

/-- Leaves that go on and then a RAISE: the block halts one step after the last of them, the call not returned. -/
theorem run_to_raise {us : List Leaf} (hgo : ∀ u ∈ us, leafGoesOn u = true) {s : State} {slot : Slot} {c : FaultCode}
    (hs : Running s) (hp : s.pending = (us ++ [Leaf.raise c]).map leafWord) (hi : instOf s s.active = some slot) :
    Sys2Proof.core.run (us.length + 1) s = .next (raiseFault c { afterLeaves slot us s with pending := [] }) := by
  have hrun := run_performLeaves hgo hs (performLeaves_goesOn us hgo hi) [leafWord (.raise c)] 1
  have hlast : Running (afterLeaves slot us s) := ⟨hs.live, hs.busy, hs.noBus, hs.noHost⟩
  rw [List.map_append] at hp
  have hs' : { s with pending := us.map leafWord ++ [leafWord (.raise c)] } = s := by
    rw [← List.map_singleton, ← hp]
  rw [hs', run_succ (step_raise hlast c [])] at hrun
  exact hrun

/-- Settles O39: with no zero the expansion is the bodies of all bytes, and then the RAISE that halts the block. -/
theorem unterminatedStringFaults : Obligations.UnterminatedStringFaults := by
  intro s h slot str hq hi hz evs
  obtain ⟨hf, hb, hbus, hhost⟩ := hq
  have hus : expansionOf (.putStr h str) slot = _ := putStrLeaves_of_no_zero hz Config.displayWidth slot.row slot.col
  have hexec := (exec_request (i := .putStr h str) rfl s).trans (acceptRequest_ready _ hf hb hi)
  have hs1 : Running
      { s with busy := true, active := h, pending := (expansionOf (.putStr h str) slot).map leafWord } :=
    ⟨hf, rfl, hbus, hhost⟩
  have hrun := run_to_raise (leafGoesOn_putStrBodies _ _ _ _) hs1 (congrArg (List.map leafWord) hus) hi
  rw [length_putStrBodies] at hrun
  refine ⟨_, _, _, _, hexec, hrun, ?_, rfl, fun hc => cursorAfter_putStrBodies Config.displayWidth_le hc str⟩
  rw [afterLeaves, eventsOf_putStrBodies]
  rfl

end Sys2Proof.Machine
end

section
/-! What a step runs (60_exceptions.md R180): the instruction the host's move or `pending` or `busIn` holds; the return of the
call in flight; and an instruction placed where the next step fetches it (log entry 12). -/

namespace Sys2Proof.Machine

/-! ### What is fetched -/

section Fetched

variable {s t : State} {i : Instr}

theorem step_of_fetch_instr (h : fetch s = .instr i t) : step s = exec i t := by
  rw [step, h]

theorem step_of_fetch_done {o : Host.Outcome State Fault Refusal} (h : fetch s = .done o) : step s = o := by
  rw [step, h]

theorem blockStep_head (hb : s.busy = true) {w : UopWord} {rest : List UopWord} (hp : s.pending = w :: rest)
    (hd : decodeUop w = .ok i) : blockStep s = .instr i { s with pending := rest } := by
  simp [blockStep, hb, hp, hd]

theorem blockStep_complete (hb : s.busy = true) (hp : s.pending = []) :
    blockStep s = .done (.next (completeRequest s)) := by
  simp [blockStep, hb, hp]

section Live

variable (hf : s.fault = none)

include hf

theorem fetch_bus {w : BusWord} (hbus : s.busIn = some w) (hd : decodeBus w = .ok i) :
    fetch s = .instr i { s with busIn := none } := by
  simp [fetch, hf, hbus, busStep, hd]

variable (hbus : s.busIn = none)

include hbus

theorem fetch_no_move (hhost : s.host = []) : fetch s = blockStep s := by
  simp [fetch, hf, hbus, hostStep, hhost]

theorem fetch_pass {moves : List HostMove} (hhost : s.host = .pass :: moves) :
    fetch s = blockStep { s with host := moves } := by
  simp [fetch, hf, hbus, hostStep, hhost]

/-- A wait is not used up before the block is idle (log entry 1). -/
theorem fetch_await_busy {moves : List HostMove} (hhost : s.host = .await :: moves) (hb : s.busy = true) :
    fetch s = blockStep s := by
  simp [fetch, hf, hbus, hostStep, hhost, hb]

theorem step_present_legal {w : ReqWord} {side : Side} {rest : List HostMove} (hhost : s.host = .present w side :: rest)
    (hd : decodeRequest w side = .ok i) : step s = exec i { s with host := rest } := by
  rw [step, fetch_present hf hbus hhost, present, hd]

theorem step_present_illegal {w : ReqWord} {side : Side} {rest : List HostMove}
    (hhost : s.host = .present w side :: rest) (hillegal : legalRequest w side = false) :
    step s = .next (rejectRequest { s with host := rest }) := by
  rw [step, fetch_present hf hbus hhost, present_illegal hillegal]

end Live

end Fetched

/-! ### The step -/

/-- Settles O7: each of the five ways to fetch, with what is read there. -/
theorem stepRunsDecodedInstruction : Obligations.StepRunsDecodedInstruction := by
  intro s i hf
  refine ⟨?presented, ?no_move, ?passing, ?waiting, ?bus⟩
  case presented =>
    intro w side rest hbus hhost hd
    exact step_present_legal hf hbus hhost hd
  case no_move =>
    intro w rest hbus hhost hb hp hd
    exact step_of_fetch_instr ((fetch_no_move hf hbus hhost).trans (blockStep_head hb hp hd))
  case passing =>
    intro w rest moves hbus hhost hb hp hd
    exact step_of_fetch_instr
      ((fetch_pass hf hbus hhost).trans (blockStep_head (s := { s with host := moves }) hb hp hd))
  case waiting =>
    intro w rest moves hbus hhost hb hp hd
    exact step_of_fetch_instr ((fetch_await_busy hf hbus hhost hb).trans (blockStep_head hb hp hd))
  case bus =>
    intro w hbus hd
    exact step_of_fetch_instr (fetch_bus hf hbus hd)

/-- Settles O8: under each of the three moves the block's own step is the completion. -/
theorem emptyPendingCompletes : Obligations.EmptyPendingCompletes := by
  intro s hf hbus hb hp
  refine ⟨fun hhost => ?no_move, fun moves hhost => ?passing, fun moves hhost => ?waiting⟩
  case no_move => exact step_of_fetch_done ((fetch_no_move hf hbus hhost).trans (blockStep_complete hb hp))
  case passing =>
    exact step_of_fetch_done
      ((fetch_pass hf hbus hhost).trans (blockStep_complete (s := { s with host := moves }) hb hp))
  case waiting => exact step_of_fetch_done ((fetch_await_busy hf hbus hhost hb).trans (blockStep_complete hb hp))

/-- Settles O9: an idle block uses up the host's move, if there is one, and does nothing else. -/
theorem idleBlockWaits : Obligations.IdleBlockWaits := by
  intro s hf hbus hb
  have hwait : ∀ {moves}, s.host = moves → (∀ w side rest, moves ≠ .present w side :: rest) →
      step s = .next { s with host := moves.tail } := by
    rintro _ rfl hno
    exact step_idle hf hbus hb hno
  refine ⟨fun hhost => ?_, fun rest hhost => hwait hhost nofun, fun rest hhost => hwait hhost nofun⟩
  have hs : { s with host := [] } = s := by rw [← hhost]
  exact (hwait hhost nofun).trans (congrArg _ hs)

/-- Settles O24: the run of `pending` is the leaves performed, and the call returned. -/
theorem pendingRunsToCompletion : Obligations.PendingRunsToCompletion :=
  fun _ _ _ hf hbus hhost hb hp hgo hi => run_to_completion hgo ⟨hf, hb, hbus, hhost⟩ hp hi

/-! ### A placed instruction -/

/-- `withActive` writes `insts` and `active` only. -/
theorem withActive_frame (s : State) :
    withActive s = { s with insts := (withActive s).insts, active := (withActive s).active } := by
  unfold withActive
  split <;> rfl

@[simp] theorem withActive_fault (s : State) : (withActive s).fault = s.fault := by rw [withActive_frame]
@[simp] theorem withActive_busy (s : State) : (withActive s).busy = s.busy := by rw [withActive_frame]
@[simp] theorem withActive_pending (s : State) : (withActive s).pending = s.pending := by rw [withActive_frame]
@[simp] theorem withActive_level (s : State) : (withActive s).level = s.level := by rw [withActive_frame]
@[simp] theorem withActive_trace (s : State) : (withActive s).trace = s.trace := by rw [withActive_frame]
@[simp] theorem withActive_host (s : State) : (withActive s).host = s.host := by rw [withActive_frame]
@[simp] theorem withActive_busIn (s : State) : (withActive s).busIn = s.busIn := by rw [withActive_frame]

/-- Slot 0 exists, whatever N_INST is (R7). -/
theorem instOf_withActive (s : State) : (instOf (withActive s) (withActive s).active).isSome = true := by
  unfold withActive
  split
  next slot hi => rw [hi]; rfl
  next =>
    have hzero : instOf (setSlot 0#4 (freshSlot zeroPins) { s with active := 0#4 }) 0#4 = some (freshSlot zeroPins) :=
      instOf_eq_some.2 ⟨by simp, rfl, Config.instanceCount_pos⟩
    exact Option.isSome_iff_exists.2 ⟨_, hzero⟩

/-- Settles O10: the placed request is the host's next move, the placed micro-op the head of `pending`, the placed bus byte is
in `busIn`; the instruction runs once it has been taken from there. -/
theorem placedInstructionRunsNext : Obligations.PlacedInstructionRunsNext := by
  intro s c i hd
  cases c with
  | request w side =>
    have hstep := step_present_legal (s := withCode s (.request w side)) rfl rfl rfl hd
    exact ⟨_, hstep, rfl, rfl, rfl, rfl, rfl, rfl, fun _ _ _ => ⟨rfl, rfl, rfl⟩, nofun, nofun⟩
  | uop w =>
    have hfetch := fetch_pass (s := withCode s (.uop w)) (withActive_fault _) (withActive_busIn _) (withActive_host _)
    have hhead := blockStep_head (s := { withCode s (.uop w) with host := s.host }) (withActive_busy _)
      (withActive_pending _) hd
    exact ⟨_, step_of_fetch_instr (hfetch.trans hhead), withActive_fault _, withActive_busIn _, withActive_trace _,
      withActive_level _, rfl, rfl, nofun, fun _ _ => ⟨withActive_busy _, instOf_withActive _⟩, nofun⟩
  | bus w =>
    have hfetch := fetch_bus (s := withCode s (.bus w)) (withActive_fault _) (withActive_busIn _) hd
    exact ⟨_, step_of_fetch_instr hfetch, withActive_fault _, rfl, withActive_trace _, withActive_level _,
      withActive_pending _, withActive_host _, nofun, nofun, fun _ _ => ⟨withActive_busy _, instOf_withActive _⟩⟩

end Sys2Proof.Machine
end

section
/-! Faults (60_exceptions.md R185, R188): RAISE halts the block, and a presented request raises the first fault that holds. -/

namespace Sys2Proof.Machine

theorem raiseWord_eq_or (c : FaultCode) : raiseWord c = 0x7000#16 ||| (faultCodeBits c).setWidth 16 := by
  cases c <;> decide

/-- Settles O45: RAISE runs as its leaf, and a block with a code in `fault` has no step and runs no instruction. -/
theorem raiseHaltsTheBlock : Obligations.RaiseHaltsTheBlock :=
  ⟨fun _ c hf => ⟨congrArg Code.uop (raiseWord_eq_or c), exec_leafInstr (.raise c) hf⟩,
    fun _ _ hf => ⟨step_halted hf, exec_halted hf⟩⟩

/-! ### A presented request -/

theorem rejectRequest_busy {s : State} (hb : s.busy = true) : rejectRequest s = raiseFault .reentry s := by
  simp [rejectRequest, hb]

@[simp] theorem initBody_fault (p : Pins) (s : State) : (initBody p s).fault = s.fault := by
  unfold initBody
  split <;> rfl

/-- REENTRY is the first check of every request, INIT included (R180). -/
theorem exec_request_busy {i : Instr} (hr : isRequest i = true) {s : State} (hf : s.fault = none) (hb : s.busy = true) :
    exec i s = .next (raiseFault .reentry s) := by
  obtain ⟨p, rfl⟩ | ⟨h, hh⟩ | hno := isRequest_cases i
  · rw [exec_init, unlessHalted_live hf, if_pos hb]
  · rw [exec_request hh, acceptRequest_busy h _ hf hb]
  · exact absurd (hr.symm.trans hno) Bool.noConfusion

/-- On an idle block a request whose handle, if it has one, is not absent raises nothing. -/
theorem exec_request_idle {i : Instr} (hr : isRequest i = true) {s : State} (hf : s.fault = none) (hb : s.busy = false)
    (hi : ∀ h, requestHandle i = some h → instOf s h ≠ none) : ∃ t, exec i s = .next t ∧ t.fault = none := by
  obtain ⟨p, rfl⟩ | ⟨h, hh⟩ | hno := isRequest_cases i
  · exact ⟨initBody p s, by rw [exec_init, unlessHalted_live hf, hb]; rfl, (initBody_fault p s).trans hf⟩
  · obtain ⟨slot, hslot⟩ := Option.ne_none_iff_exists'.1 (hi h hh)
    exact ⟨_, (exec_request hh s).trans (acceptRequest_ready _ hf hb hslot), hf⟩
  · exact absurd (hr.symm.trans hno) Bool.noConfusion

/-- Settles O46: a busy block rejects what is illegal and what is legal alike; an idle one first decodes, then looks up the
handle. -/
theorem faultPriority : Obligations.FaultPriority := by
  intro s w side rest hf hbus hhost
  refine ⟨fun hb => ?reentry, fun hb hillegal => ?illegal, fun i h hb hd hh hi => ?absent, fun i hb hd hi => ?accepted⟩
  case reentry =>
    cases hlegal : legalRequest w side with
    | false =>
      rw [step_present_illegal hf hbus hhost hlegal, rejectRequest_busy (s := { s with host := rest }) hb]
      rfl
    | true =>
      obtain ⟨i, hd⟩ := legalRequest_iff.1 hlegal
      rw [step_present_legal hf hbus hhost hd]
      exact exec_request_busy (s := { s with host := rest }) (isRequest_of_decodeRequest hd) hf hb
  case illegal => exact illegalRequestsAreRejected.2 s w side rest hf hb hbus hhost hillegal
  case absent =>
    rw [step_present_legal hf hbus hhost hd, exec_request hh]
    exact acceptRequest_absent (s := { s with host := rest }) _ hf hb hi
  case accepted =>
    rw [step_present_legal hf hbus hhost hd]
    exact exec_request_idle (s := { s with host := rest }) (isRequest_of_decodeRequest hd) hf hb hi

end Sys2Proof.Machine
end

section
/-! Isolation of instances (60_exceptions.md R200): only CURSET writes a present slot, and it writes the active one. -/

namespace Sys2Proof.Machine

/-- Every slot present in `s`, but for the one `active` names, is as it was. -/
def OthersUntouched (s t : State) : Prop :=
  ∀ k : Fin 15, s.insts[k].present = true → k.val ≠ s.active.toNat → t.insts[k] = s.insts[k]

theorem othersUntouched_of_insts {s t : State} (h : t.insts = s.insts) : OthersUntouched s t := fun k _ _ => by
  rw [h]

/-- Two changes compose where the first leaves `active` alone. -/
theorem OthersUntouched.trans {s t u : State} (hactive : t.active = s.active) (h : OthersUntouched s t)
    (h' : OthersUntouched t u) : OthersUntouched s u := fun k hp hk => by
  have hkt : t.insts[k] = s.insts[k] := h k hp hk
  exact (h' k (hkt ▸ hp) (hactive ▸ hk)).trans hkt

theorem performLeaf_othersUntouched {u : Leaf} {s t : State} (h : performLeaf u s = .next t) : OthersUntouched s t := by
  cases u with
  | drive ln lvl =>
    obtain ⟨slot, -, rfl⟩ := driveLine_next h
    exact othersUntouched_of_insts rfl
  | delay n =>
    obtain ⟨-, rfl⟩ := requestDelay_next h
    exact othersUntouched_of_insts rfl
  | curSet row col =>
    obtain ⟨slot, -, rfl⟩ := writeCursor_next h
    intro k _ hk
    rw [setSlot_getElem, if_neg hk.symm]
  | raise c =>
    cases h
    exact othersUntouched_of_insts rfl

theorem performLeaves_othersUntouched {us : List Leaf} {s t : State} (h : performLeaves us s = .next t) :
    OthersUntouched s t := by
  have hboth : t.active = s.active ∧ OthersUntouched s t := by
    refine performLeaves_induction (R := fun s t => t.active = s.active ∧ OthersUntouched s t)
      (fun s => ⟨rfl, othersUntouched_of_insts rfl⟩) ?_ us ?_ h
    · rintro s t u ⟨ha, h⟩ ⟨ha', h'⟩
      exact ⟨ha'.trans ha, h.trans ha h'⟩
    · intro u _ s t hu
      obtain ⟨-, ha, -⟩ := performLeaf_keeps hu
      exact ⟨ha, performLeaf_othersUntouched hu⟩
  exact hboth.2

/-- The slot INIT fills was not present. -/
theorem initBody_othersUntouched (p : Pins) (s : State) : OthersUntouched s (initBody p s) := by
  obtain hi | ⟨h, habsent, -, hi⟩ := initBody_insts p s
  · exact othersUntouched_of_insts hi
  · intro k hp _
    have hne : h.val ≠ k.val := fun he => by
      rw [Fin.ext he, hp] at habsent
      cases habsent
    simp [hi, Vector.getElem_set_ne, hne]

theorem exec_othersUntouched {i : Instr} {s t : State} (h : exec i s = .next t) : OthersUntouched s t := by
  obtain ⟨-, ⟨-, c, rfl⟩ | ⟨-, p, -, rfl⟩ | ⟨-, a, slot, -, -, rfl⟩ | ⟨-, hl⟩⟩ := exec_next h
  · exact othersUntouched_of_insts rfl
  · exact initBody_othersUntouched p s
  · exact othersUntouched_of_insts rfl
  · exact performLeaves_othersUntouched hl

/-- Settles O52: a step runs one instruction from a state with the same slots and the same `active`, or writes no slot. -/
theorem otherInstancesUntouched : Obligations.OtherInstancesUntouched := by
  intro s t h
  have hexec : ∀ {i : Instr} {u : State}, exec i u = .next t → u.insts = s.insts → u.active = s.active →
      OthersUntouched s t := fun hx hinsts hactive =>
    (othersUntouched_of_insts hinsts).trans hactive (exec_othersUntouched hx)
  obtain ⟨-, ⟨w, side, rest, -, -, rfl⟩ | ⟨w, side, rest, i, -, -, hx⟩ | ⟨w, rest, hs, i, -, -, -, hx⟩ |
    ⟨w, i, -, -, hx⟩ | ⟨hs, -, -, rfl⟩ | ⟨hs, -, rfl⟩⟩ := step_next h
  · obtain ⟨c, hc⟩ := rejectRequest_eq { s with host := rest }
    rw [hc]
    exact othersUntouched_of_insts rfl
  · exact hexec hx rfl rfl
  · exact hexec hx rfl rfl
  · exact hexec hx rfl rfl
  · exact othersUntouched_of_insts rfl
  · exact othersUntouched_of_insts rfl

end Sys2Proof.Machine
end

section
/-! Reset and the requested-delay table (70_reset_and_hazards.md R210, R225): the block idle after reset, and the row of every
operation, added up from the rows of its parts. -/

namespace Sys2Proof.Machine

/-! ### Reset -/

/-- Settles O12: after reset the block is idle, and its host has no move (log entry 18). -/
theorem resetStartsNothing : Obligations.ResetStartsNothing :=
  (idleBlockWaits State.reset rfl rfl rfl).1 rfl

/-! ### Rows of the table -/

/-- The row of R225's table for an expansion: delay events, drive events, leaves, requested milliseconds. -/
def tableRow (p : Pins) (us : List Leaf) : Nat × Nat × Nat × Nat :=
  (delayEvents (eventsOf p us), driveEvents (eventsOf p us), us.length, requestedMs (eventsOf p us))

/-- The rows of two expansions, one after the other, add up column by column. -/
theorem tableRow_append (p : Pins) (us vs : List Leaf) : tableRow p (us ++ vs) = tableRow p us + tableRow p vs := by
  simp [tableRow, eventsOf_append]

theorem tableRow_nibble (p : Pins) (v : Nibble) : tableRow p (writeNibbleLeaves v) = (2, 7, 9, 2) := rfl

/-- RS and RW, and then two nibbles (R120, R121). -/
theorem tableRow_sendByte (p : Pins) (rs : Level) (b : Byte) : tableRow p (sendByteLeaves rs b) = (4, 16, 20, 4) := by
  rw [sendByteLeaves, tableRow_append, tableRow_append, tableRow_nibble, tableRow_nibble]
  rfl

theorem tableRow_body (p : Pins) (rs : Level) (b r c : Byte) :
    tableRow p (sendByteLeaves rs b ++ [.delay Config.tCmd, curSetLeaf r c]) = (5, 16, 22, 5) := by
  rw [tableRow_append, tableRow_sendByte]
  rfl

theorem tableRow_begin (p : Pins) : tableRow p beginLeaves = (27, 83, 112, 547) := by
  rw [tableRow, eventsOf_begin, delayEvents_beginEvents, driveEvents_beginEvents, length_beginLeaves,
    requestedMs_beginEvents]

/-- One body's row for each character (R166). -/
theorem tableRow_putStrBodies (p : Pins) (dw : Nat) (r c : Byte) (cs : List Byte) :
    tableRow p (putStrBodies dw r c cs) = (5 * cs.length, 16 * cs.length, 22 * cs.length, 5 * cs.length) := by
  induction cs generalizing r c with
  | nil => rfl
  | cons b cs ih =>
    rw [putStrBodies, tableRow_append, ih, putCharLeaves, sendDataLeaves, tableRow_body]
    simp [Nat.mul_add, Nat.add_comm]

/-- Settles O43: a nibble and a byte have fixed numbers of leaves, four operations are one body each, Begin's counts are R140's,
and PutStr is its characters' bodies, with the leaf RAISE after them where there is no zero. -/
theorem requestedDelayTable : Obligations.RequestedDelayTable := by
  intro p dw r c row column b v str
  refine ⟨rfl, tableRow_nibble p v, tableRow_sendByte p .L b, tableRow_sendByte p .H b, tableRow_begin p,
    tableRow_body p .L .., tableRow_body p .L .., tableRow_body p .L .., tableRow_body p .H .., fun hz => ?zero,
    fun hz => ?noZero⟩
  case zero =>
    rw [putStrLeaves_of_zero hz]
    exact tableRow_putStrBodies p dw r c (beforeZero str)
  case noZero =>
    have hraise : tableRow p [.raise .stringUnterminated] = (0, 0, 1, 0) := rfl
    change tableRow p _ = _
    rw [putStrLeaves_of_no_zero hz, tableRow_append, tableRow_putStrBodies, hraise]
    rfl

end Sys2Proof.Machine
end
